-- ==== Sys2Proof/Word.lean ====
section
/-! DEFINITION. The word type of the slots, the queues, the label word and the data operand (R6: W = 32). -/

namespace Sys2Proof

/-- One slot word, queue word, label word or data operand: W = 32 bits (R6, R80). -/
abbrev Word := BitVec 32

end Sys2Proof
end

