-- ==== Sys2Proof/Syntax.lean ====
section
/-! DEFINITION. The operations of DBSC with their operands: one constructor for each row of R85 and R86. -/

namespace Sys2Proof

/-- The direction index `d` (R7): IN = 0 (device to memory), OUT = 1 (memory to device). -/
inductive Dir where
  | inp
  | out
deriving DecidableEq, Repr, Inhabited

/-- The slot index `s` (R7): A = 0, B = 1. -/
inductive Slot where
  | a
  | b
deriving DecidableEq, Repr, Inhabited

/-- The direction argument of configure and the register DIRN (R29, R81): read-from-device = 0, write-to-device = 1. -/
inductive DevDir where
  | rd
  | wr
deriving DecidableEq, Repr, Inhabited

/-- A word index `i` or a length `k` as the label carries it: the 16-bit field K (R81, R84). -/
abbrev Index := BitVec 16

/-- The 18 operations (R85, R86), operands in the order of R93: d, r, s, i or k, X. -/
inductive Instr where
  /-- NOP (R170) -/
  | nop
  /-- CLAIM d (R131) -/
  | claim (d : Dir)
  /-- CONFIG d, r, s, k (R132) -/
  | config (d : Dir) (r : DevDir) (sl : Slot) (k : Index)
  /-- START d (R133) -/
  | start (d : Dir)
  /-- SWAP d (R101) -/
  | swap (d : Dir)
  /-- RDPTR d (R102) -/
  | rdptr (d : Dir)
  /-- WRPTR d (R103) -/
  | wrptr (d : Dir)
  /-- LDR d, i (R104) -/
  | ldr (d : Dir) (i : Index)
  /-- STW d, i, X (R105) -/
  | stw (d : Dir) (i : Index) (x : Word)
  /-- LDS d, s, i (R106) -/
  | lds (d : Dir) (sl : Slot) (i : Index)
  /-- STS d, s, i, X (R107) -/
  | sts (d : Dir) (sl : Slot) (i : Index) (x : Word)
  /-- RDINTS (R171) -/
  | rdints
  /-- RDSTAT d (R172) -/
  | rdstat (d : Dir)
  /-- RDADDR d (R173) -/
  | rdaddr (d : Dir)
  /-- RDLEN d (R174) -/
  | rdlen (d : Dir)
  /-- BEAT d (R134); `x` is the received word when d = IN and is 0 (unused) when d = OUT -/
  | beat (d : Dir) (x : Word)
  /-- ONCOMP d (R135) -/
  | oncomp (d : Dir)
  /-- RESET (R176) -/
  | reset
deriving DecidableEq, Repr, Inhabited

end Sys2Proof
end

