-- ==== Sys2Proof/Config.lean ====
section
/-! DEFINITION. What one instance of DBSC fixes (the parameters of R6), what its environment answers at each step
(the oracle of R13), and the free value that stands for a step nobody has chosen. -/

namespace Sys2Proof

/-- A transfer-resource id: a natural number below 256 (R28, R35). -/
abbrev ResId := Fin 256

/-- BYTE_ORDER (R6, R64): where the bytes of a slot word lie if the slot memory is mapped onto a byte bus. -/
inductive ByteOrder where
  | little
  | big
deriving DecidableEq, Repr, Inhabited

/-- The parameters of one instance (R6), fixed for its whole life. W is the type `Word`; SLOT0 is an answer of the
oracle (log 4). -/
structure Params where
  /-- N, the slot size in words -/
  n : Nat
  /-- REARM_SETS_PENDING -/
  rearmSetsPending : Bool
  /-- POOL0, the free ids after reset, listed in rising order -/
  pool0 : List ResId
  /-- BYTE_ORDER -/
  byteOrder : ByteOrder
deriving DecidableEq, Repr, Inhabited

/-- A set of ids is listed in strictly rising order, so that equal sets are equal lists (log 16). -/
def idsRising : List ResId → Bool
  | [] => true
  | [_] => true
  | x :: y :: r => decide (x < y) && idsRising (y :: r)

/-- The range of N (R6) and the form of POOL0. -/
def Params.wf (p : Params) : Bool :=
  decide (1 ≤ p.n) && decide (p.n ≤ 65535) && idsRising p.pool0

/-- The values State.reset carries: the spec's defaults for N and REARM_SETS_PENDING (R6); POOL0 and BYTE_ORDER are
OPEN there and chosen here (DESIGN CHOICE, log 2 and log 5). -/
def Params.standard : Params :=
  { n := 8, rearmSetsPending := true, pool0 := [0, 1], byteOrder := .little }

/-- What the oracle answers for one step (R13, R210, R211, R131, R40): the two handshake levels, a number that says
which free id a CLAIM draws, and the slot contents (byte cells of the two slot memories) a RESET leaves. -/
structure Oracle where
  rxValid : Bool
  txReady : Bool
  draw : Nat
  slotsIn : List Host.Cell
  slotsOut : List Host.Cell
deriving DecidableEq, Repr, Inhabited

/-- Who offers a label (R80): the host on the command port, or the hardware taking a step by itself. -/
inductive Source where
  /-- a word presented on the command port with `cmd_valid` = 1 (R83) -/
  | port
  /-- an internal event, named by its label (R86) -/
  | hardware
deriving DecidableEq, Repr, Inhabited

/-- One step the environment has chosen: who takes it, its label (L, X) and the oracle's answers for it. For a
command X is `wdata`; for BEAT IN it is `rx_data`, the word at the head of the receive queue (R82, R210). -/
structure Stimulus where
  source : Source
  label : Word
  data : Word
  oracle : Oracle
deriving DecidableEq, Repr, Inhabited

/-- FREE VALUE (log 6): which step is taken next is not determined by the state (R200); the `n`-th step that nobody
has chosen is this constant's value at `n`. It has no body: nothing can be proved of it. -/
opaque Config.nextStimulus : Nat → Stimulus

end Sys2Proof
end

