-- ==== Sys2Proof/WellFormed.lean ====
section
/-! DEFINITION. Which instruction terms stand for a label: the operand types carry every bound but one. -/

namespace Sys2Proof

/-- An operand the label does not use is written as 0 (R82): BEAT OUT has no data operand. Every other operand
is bounded by its type; an index `i >= N` is a legal word (R88) that its meaning answers with ERR_ARG. -/
def Instr.wf : Instr → Bool
  | .beat .out x => x == 0
  | .beat .inp _ => true
  | .nop => true
  | .claim _ => true
  | .config _ _ _ _ => true
  | .start _ => true
  | .swap _ => true
  | .rdptr _ => true
  | .wrptr _ => true
  | .ldr _ _ => true
  | .stw _ _ _ => true
  | .lds _ _ _ => true
  | .sts _ _ _ _ => true
  | .rdints => true
  | .rdstat _ => true
  | .rdaddr _ => true
  | .rdlen _ => true
  | .oncomp _ => true
  | .reset => true

end Sys2Proof
end

