-- ==== Sys2Proof/Decode.lean ====
section
/-! DEFINITION. The label word (R81, R82), its decoder (R84 to R90, total), its encoder (R95) and the opcode map as a
table of masks and matches (R85, R86). -/

namespace Sys2Proof

/-- IN = 0, OUT = 1 (R7, R81). -/
def Dir.bit : Dir → Bool
  | .inp => false
  | .out => true

/-- The direction a D bit names. -/
def Dir.ofBit (b : Bool) : Dir := if b then .out else .inp

/-- A = 0, B = 1 (R7, R81). -/
def Slot.bit : Slot → Bool
  | .a => false
  | .b => true

/-- The slot an S bit names. -/
def Slot.ofBit (b : Bool) : Slot := if b then .b else .a

/-- read-from-device = 0, write-to-device = 1 (R29, R81). -/
def DevDir.bit : DevDir → Bool
  | .rd => false
  | .wr => true

/-- The device direction an R bit names. -/
def DevDir.ofBit (b : Bool) : DevDir := if b then .wr else .rd

/-- The fields of a label word (R81); `clsOp` is CLS above OP. -/
structure Fields where
  clsOp : BitVec 5
  d : Bool
  s : Bool
  r : Bool
  zero : BitVec 8
  k : BitVec 16
deriving DecidableEq, Repr

/-- R81: CLS and OP 31:27, D 26, S 25, R 24, ZERO 23:16, K 15:0. -/
def Fields.ofWord (l : Word) : Fields :=
  { clsOp := l.extractLsb' 27 5
    d := l.getLsbD 26
    s := l.getLsbD 25
    r := l.getLsbD 24
    zero := l.extractLsb' 16 8
    k := l.extractLsb' 0 16 }

/-- The label word of given fields, the most significant first (R81, R95). -/
def Fields.toWord (f : Fields) : Word :=
  f.clsOp ++ BitVec.ofBool f.d ++ BitVec.ofBool f.s ++ BitVec.ofBool f.r ++ f.zero ++ f.k

/-- Format Z (R82): D, S, R, K unused, each must be 0 (R88). -/
def Fields.formatZ (f : Fields) (i : Instr) : Option Instr :=
  if f.d = false ∧ f.s = false ∧ f.r = false ∧ f.zero = 0 ∧ f.k = 0 then some i else none

/-- Format D (R82): S, R, K unused. -/
def Fields.formatD (f : Fields) (i : Dir → Instr) : Option Instr :=
  if f.s = false ∧ f.r = false ∧ f.zero = 0 ∧ f.k = 0 then some (i (Dir.ofBit f.d)) else none

/-- Format DK (R82): S, R unused. -/
def Fields.formatDK (f : Fields) (i : Dir → Index → Instr) : Option Instr :=
  if f.s = false ∧ f.r = false ∧ f.zero = 0 then some (i (Dir.ofBit f.d) f.k) else none

/-- Format DSK (R82): R unused. -/
def Fields.formatDSK (f : Fields) (i : Dir → Slot → Index → Instr) : Option Instr :=
  if f.r = false ∧ f.zero = 0 then some (i (Dir.ofBit f.d) (Slot.ofBit f.s) f.k) else none

/-- Format C (R82): every field used. -/
def Fields.formatC (f : Fields) (i : Dir → DevDir → Slot → Index → Instr) : Option Instr :=
  if f.zero = 0 then some (i (Dir.ofBit f.d) (DevDir.ofBit f.r) (Slot.ofBit f.s) f.k) else none

/-- BEAT takes the received word from X only when D = IN; for OUT the operand X is ignored (R82; log 18). -/
def beatOf (x : Word) (d : Dir) : Instr :=
  match d with
  | .inp => .beat .inp x
  | .out => .beat .out 0

/-- Decoding of a label (R85, R86, R87): every word is one operation with its operands, or illegal (`none`, R88).
X is read by STW, STS and BEAT IN and ignored by every other operation (R82). -/
def decode (l x : Word) : Option Instr :=
  let f := Fields.ofWord l
  match f.clsOp.toNat with
  | 0x00 => f.formatZ .nop
  | 0x01 => f.formatD .claim
  | 0x02 => f.formatC .config
  | 0x03 => f.formatD .start
  | 0x04 => f.formatD .swap
  | 0x05 => f.formatD .rdptr
  | 0x06 => f.formatD .wrptr
  | 0x07 => f.formatDK .ldr
  | 0x08 => f.formatDK (fun d i => .stw d i x)
  | 0x09 => f.formatDSK .lds
  | 0x0A => f.formatDSK (fun d s i => .sts d s i x)
  | 0x0B => f.formatZ .rdints
  | 0x0C => f.formatD .rdstat
  | 0x0D => f.formatD .rdaddr
  | 0x0E => f.formatD .rdlen
  | 0x10 => f.formatD (beatOf x)
  | 0x11 => f.formatD .oncomp
  | 0x1F => f.formatZ .reset
  | _ => none

/-- CLS = 1 (R81): the word of an internal event. -/
def isEventWord (l : Word) : Bool := l.getLsbD 31

/-- What the command port executes: a word with CLS = 1 is illegal there whatever its other bits (R89; log 13). -/
def decodeCommand (l x : Word) : Option Instr :=
  if isEventWord l then none else decode l x

/-- The event a label names when the hardware takes the step by itself: only words with CLS = 1 (R80, R86). -/
def decodeEvent (l x : Word) : Option Instr :=
  if isEventWord l then decode l x else none

/-- BEAT, ONCOMP and RESET are internal events, every other operation is a host command (R85, R86). -/
def Instr.isEvent : Instr → Bool
  | .beat _ _ => true
  | .oncomp _ => true
  | .reset => true
  | .nop => false
  | .claim _ => false
  | .config _ _ _ _ => false
  | .start _ => false
  | .swap _ => false
  | .rdptr _ => false
  | .wrptr _ => false
  | .ldr _ _ => false
  | .stw _ _ _ => false
  | .lds _ _ _ => false
  | .sts _ _ _ _ => false
  | .rdints => false
  | .rdstat _ => false
  | .rdaddr _ => false
  | .rdlen _ => false

/-- The fields of a label with class and opcode `c` that uses the given operands; the rest is 0. -/
def fieldsOf (c : BitVec 5) (d : Bool := false) (s : Bool := false) (r : Bool := false) (k : BitVec 16 := 0) :
    Fields :=
  { clsOp := c, d := d, s := s, r := r, zero := 0, k := k }

/-- The fields of an operation's label word (R85, R86, R95). -/
def encodeFields : Instr → Fields
  | .nop => fieldsOf 0x00
  | .claim d => fieldsOf 0x01 d.bit
  | .config d r sl k => fieldsOf 0x02 d.bit sl.bit r.bit k
  | .start d => fieldsOf 0x03 d.bit
  | .swap d => fieldsOf 0x04 d.bit
  | .rdptr d => fieldsOf 0x05 d.bit
  | .wrptr d => fieldsOf 0x06 d.bit
  | .ldr d i => fieldsOf 0x07 d.bit (k := i)
  | .stw d i _ => fieldsOf 0x08 d.bit (k := i)
  | .lds d sl i => fieldsOf 0x09 d.bit sl.bit (k := i)
  | .sts d sl i _ => fieldsOf 0x0A d.bit sl.bit (k := i)
  | .rdints => fieldsOf 0x0B
  | .rdstat d => fieldsOf 0x0C d.bit
  | .rdaddr d => fieldsOf 0x0D d.bit
  | .rdlen d => fieldsOf 0x0E d.bit
  | .beat d _ => fieldsOf 0x10 d.bit
  | .oncomp d => fieldsOf 0x11 d.bit
  | .reset => fieldsOf 0x1F

/-- The data operand X of a label: used by STW, STS and BEAT IN, written as 0 for every other (R82). -/
def encodeData : Instr → Word
  | .stw _ _ x => x
  | .sts _ _ _ x => x
  | .beat .inp x => x
  | .beat .out _ => 0
  | .nop => 0
  | .claim _ => 0
  | .config _ _ _ _ => 0
  | .start _ => 0
  | .swap _ => 0
  | .rdptr _ => 0
  | .wrptr _ => 0
  | .ldr _ _ => 0
  | .lds _ _ _ => 0
  | .rdints => 0
  | .rdstat _ => 0
  | .rdaddr _ => 0
  | .rdlen _ => 0
  | .oncomp _ => 0
  | .reset => 0

/-- The label (L, X) of an operation (R80, R95). -/
def encode (i : Instr) : Word × Word := ((encodeFields i).toWord, encodeData i)

/-- The operation's name in R85 and R86. -/
def Instr.mnemonic : Instr → String
  | .nop => "NOP"
  | .claim _ => "CLAIM"
  | .config _ _ _ _ => "CONFIG"
  | .start _ => "START"
  | .swap _ => "SWAP"
  | .rdptr _ => "RDPTR"
  | .wrptr _ => "WRPTR"
  | .ldr _ _ => "LDR"
  | .stw _ _ _ => "STW"
  | .lds _ _ _ => "LDS"
  | .sts _ _ _ _ => "STS"
  | .rdints => "RDINTS"
  | .rdstat _ => "RDSTAT"
  | .rdaddr _ => "RDADDR"
  | .rdlen _ => "RDLEN"
  | .beat _ _ => "BEAT"
  | .oncomp _ => "ONCOMP"
  | .reset => "RESET"

/-- One row of R85 or R86: a word selects the row when `word and mask = pat`. -/
structure OpRow where
  mnemonic : String
  pat : Word
  mask : Word
deriving DecidableEq, Repr

/-- A word selects the row (R85). -/
def OpRow.selects (r : OpRow) (l : Word) : Bool := (l &&& r.mask) == r.pat

/-- The opcode map of R85 and R86, row by row as the tables give it. The decoder does not read it: the table is the
spec's second description of the same words. -/
def opcodeMap : List OpRow :=
  [ ⟨"NOP", 0x00000000, 0xFFFFFFFF⟩,
    ⟨"CLAIM", 0x08000000, 0xFBFFFFFF⟩,
    ⟨"CONFIG", 0x10000000, 0xF8FF0000⟩,
    ⟨"START", 0x18000000, 0xFBFFFFFF⟩,
    ⟨"SWAP", 0x20000000, 0xFBFFFFFF⟩,
    ⟨"RDPTR", 0x28000000, 0xFBFFFFFF⟩,
    ⟨"WRPTR", 0x30000000, 0xFBFFFFFF⟩,
    ⟨"LDR", 0x38000000, 0xFBFF0000⟩,
    ⟨"STW", 0x40000000, 0xFBFF0000⟩,
    ⟨"LDS", 0x48000000, 0xF9FF0000⟩,
    ⟨"STS", 0x50000000, 0xF9FF0000⟩,
    ⟨"RDINTS", 0x58000000, 0xFFFFFFFF⟩,
    ⟨"RDSTAT", 0x60000000, 0xFBFFFFFF⟩,
    ⟨"RDADDR", 0x68000000, 0xFBFFFFFF⟩,
    ⟨"RDLEN", 0x70000000, 0xFBFFFFFF⟩,
    ⟨"BEAT", 0x80000000, 0xFBFFFFFF⟩,
    ⟨"ONCOMP", 0x88000000, 0xFBFFFFFF⟩,
    ⟨"RESET", 0xF8000000, 0xFFFFFFFF⟩ ]

/-- The instruction the decoder reads from the `nbits` bits of `w`: the label word L is bits 31..0 and the data
operand X bits 63..32, so that a table row of 32 bits leaves X = 0 (R80). -/
def decodeTableWord (nbits w : Nat) : Option Instr :=
  let v := w % 2 ^ nbits
  decode (BitVec.ofNat 32 v) (BitVec.ofNat 32 (v / 2 ^ 32))

end Sys2Proof
end

