-- ==== Sys2Proof/Machine/State.lean ====
section
/-! DEFINITION. The state of DBSC (R20 to R40), the reasons a step can stop, and the state after reset. -/

namespace Sys2Proof.Machine

/-- CST, the channel state (R27). The 3-bit values 5, 6 and 7 are never reached and have no constructor (log 15). -/
inductive ChanState where
  /-- 0: no transfer resource is owned -/
  | free
  /-- 1: a transfer resource is owned, not configured -/
  | claimed
  /-- 2: configured, not triggered -/
  | idle
  /-- 3: triggered, moving words or waiting on the handshake -/
  | armed
  /-- 4: the block is complete, the interrupt is pending -/
  | done
deriving DecidableEq, Repr

/-- The response codes of host commands (R190); 6 and 7 are never produced. -/
inductive RespCode where
  | ok
  | errIllegal
  | errState
  | errArg
  | errNores
  | errFatal
deriving DecidableEq, Repr

/-- The answer to one host command: `resp` and `rdata` (R83, R190). -/
structure Response where
  code : RespCode
  rdata : Word
deriving DecidableEq, Repr

/-- The output signals the last step drove (R83, R210, R211): the response of a host command (internal events have
none, R190), the pulse `rx_pop`, and the pulse `tx_push` with its `tx_data`. The model's own field (log 10). -/
structure Outputs where
  resp : Option Response
  rxPop : Bool
  txPush : Option Word
deriving DecidableEq, Repr

/-- A slot memory (R60, R61) as byte cells in one canonical form: rising addresses, no zero byte; a byte that is not
listed reads as 0. Word `a` takes the four byte addresses 4a to 4a + 3 (log 5). -/
structure Memory where
  cells : List Host.Cell
deriving DecidableEq, Repr

/-- Addresses strictly rise and no listed byte is 0. -/
def cellsCanonical : List Host.Cell → Bool
  | [] => true
  | [c] => c.2 != 0
  | c :: d :: r => c.2 != 0 && decide (c.1 < d.1) && cellsCanonical (d :: r)

/-- The canonical form of a slot memory. -/
def Memory.wf (m : Memory) : Bool := cellsCanonical m.cells

/-- One direction's half of the state (R20): its Double Buffer and its Transfer Channel. -/
structure Half where
  /-- RSEL, the slot in the reading role (R21) -/
  rsel : Slot
  /-- PEND, pendingSwap (R23) -/
  pend : Bool
  /-- SLOT, both slots of the direction (R24, R61) -/
  mem : Memory
  /-- CST, the channel state (R27) -/
  cst : ChanState
  /-- ID, the owned transfer resource (R28) -/
  id : Option ResId
  /-- DIRN, the stored direction (R29) -/
  dirn : DevDir
  /-- ADDR, the base address of the current block, 17 bits (R30) -/
  addr : BitVec 17
  /-- LEN, the block length, 16 bits (R31) -/
  len : BitVec 16
  /-- XIDX, the words moved in the current block, 16 bits (R32) -/
  xidx : BitVec 16
  /-- IP, interrupt pending (R33) -/
  ip : Bool
  /-- IE, interrupt enable (R33) -/
  ie : Bool
deriving DecidableEq, Repr

/-- The machine. -/
structure State where
  /-- the parameters of the instance (R6), written by no step (log 1) -/
  params : Params
  /-- the half of direction IN (R20) -/
  inHalf : Half
  /-- the half of direction OUT (R20) -/
  outHalf : Half
  /-- FATAL (R34) -/
  fatal : Bool
  /-- POOLFREE, in rising order (R35) -/
  poolFree : List ResId
  /-- TXLOG, the words pushed since reset, the oldest first (R39, R212) -/
  txlog : List Word
  /-- the oracle's answers at the current step (R13; the model's own, log 8) -/
  oracle : Oracle
  /-- the steps the environment has chosen, the next one first (the model's own, log 6) -/
  pending : List Stimulus
  /-- how many free steps have been taken (the model's own, log 6) -/
  drawn : Nat
  /-- the output signals of the last step (the model's own, log 10) -/
  out : Outputs
deriving DecidableEq, Repr

/-- Why a step of the machine stops with a fault. Neither is reachable from a state that meets the invariants R42 to
R45; both are safe: the model stops where the spec has no behaviour. -/
inductive Fault where
  /-- Raised by BEAT when ADDR + XIDX is 2N or more: no such word exists (R61, R63; log 11). Safe. -/
  | noSuchAddress (d : Dir) (addr : Nat)
  /-- Raised by BEAT when XIDX + 1 does not fit 16 bits: XIDX never wraps (R26, R45; log 11). Safe. -/
  | indexOverflow (d : Dir)
deriving DecidableEq, Repr

/-- Why the model gives a step no meaning. -/
inductive Refusal where
  /-- Raised by an arm of `exec` whose instruction has no meaning yet. Safe. -/
  | notModelled (mnemonic : String)
  /-- Raised by `step` when the environment offers, as a step of the hardware, a word that names no event: such a
  word is "not a label at all" (I8 of `93_implementation_defined.md`; log 12). Safe. -/
  | notAnEvent (label : Word)
deriving DecidableEq, Repr

/-- No response, no pulse. -/
def Outputs.quiet : Outputs := { resp := none, rxPop := false, txPush := none }

/-- The answers State.reset carries; every step replaces them before anything reads them (log 20). -/
def Oracle.silent : Oracle :=
  { rxValid := false, txReady := false, draw := 0, slotsIn := [], slotsOut := [] }

/-- One half after reset (R40), with the slot contents given. -/
def Half.afterReset (m : Memory) : Half :=
  { rsel := .a, pend := true, mem := m, cst := .free, id := none, dirn := .rd, addr := 0, len := 0, xidx := 0,
    ip := false, ie := false }

/-- The machine right after reset (R40, R230): parameters as R6 gives them (POOL0 by log 2, BYTE_ORDER by log 5),
slot contents unspecified there and 0 here (DESIGN CHOICE, log 3), nothing chosen by the environment (log 20). -/
def State.reset : State :=
  { params := Params.standard
    inHalf := Half.afterReset ⟨[]⟩
    outHalf := Half.afterReset ⟨[]⟩
    fatal := false
    poolFree := Params.standard.pool0
    txlog := []
    oracle := Oracle.silent
    pending := []
    drawn := 0
    out := Outputs.quiet }

end Sys2Proof.Machine
end

