-- ==== Sys2Proof/Machine/Operands.lean ====
section
/-! DEFINITION. Operands: directions, slots, roles and word addresses (R10, R21, R61, R63, R84). -/

namespace Sys2Proof.Machine

/-- The other direction. -/
def otherDir : Dir → Dir
  | .inp => .out
  | .out => .inp

/-- The other slot: `s xor 1` (R100). -/
def otherSlot : Slot → Slot
  | .a => .b
  | .b => .a

/-- The device direction a channel has: the input channel reads from the device, the output channel writes to it
(R29, R132). -/
def devDirOf : Dir → DevDir
  | .inp => .rd
  | .out => .wr

/-- `base(s) = s * N`, the word address of word 0 of slot `s` (R10, R61). -/
def slotBase (n : Nat) : Slot → Nat
  | .a => 0
  | .b => n

/-- `a = base(s) + i`, on natural numbers (R61, R63, R84). -/
def wordAddr (n : Nat) (sl : Slot) (i : Index) : Nat := slotBase n sl + i.toNat

/-- `reading(d) = RSEL[d]` (R10, R21). -/
def Half.reading (h : Half) : Slot := h.rsel

/-- `writing(d) = 1 - RSEL[d]` (R10, R21). -/
def Half.writing (h : Half) : Slot := otherSlot h.rsel

/-- `dmaslot(d)`: the slot the channel works on, `writing(IN)` or `reading(OUT)` (R10). -/
def dmaSlot (d : Dir) (h : Half) : Slot :=
  match d with
  | .inp => h.writing
  | .out => h.reading

/-- The index check of LDR, STW, LDS, STS: `i < N` (R65). -/
def indexOk (n : Nat) (i : Index) : Bool := decide (i.toNat < n)

/-- The three operand checks of CONFIG: `r = d`, `k = N`, `s = dmaslot(d)` (R132, R195). -/
def configArgsOk (n : Nat) (d : Dir) (h : Half) (r : DevDir) (sl : Slot) (k : Index) : Bool :=
  decide (r = devDirOf d) && decide (k.toNat = n) && decide (sl = dmaSlot d h)

/-- The word a BEAT moves is at `ADDR[d] + XIDX[d]`, on natural numbers (R63, R134). -/
def beatAddr (h : Half) : Nat := h.addr.toNat + h.xidx.toNat

/-- `draw(POOLFREE)` (R10, R131): the oracle's number names one of the free ids, none when there is none (log 9). -/
def drawId (pool : List ResId) (draw : Nat) : Option ResId := pool[draw % pool.length]?

end Sys2Proof.Machine
end

