-- ==== Sys2Proof/Machine/Flags.lean ====
section
/-! DEFINITION. Flags, codes and the status words assembled from them (R27, R33, R171, R172, R190). -/

namespace Sys2Proof.Machine

/-- The 3-bit value of a channel state (R27). -/
def ChanState.code : ChanState → BitVec 3
  | .free => 0
  | .claimed => 1
  | .idle => 2
  | .armed => 3
  | .done => 4

/-- The 3-bit response code (R190). -/
def RespCode.code : RespCode → BitVec 3
  | .ok => 0
  | .errIllegal => 1
  | .errState => 2
  | .errArg => 3
  | .errNores => 4
  | .errFatal => 5

/-- A flag as a word: `zext_32` of one bit. -/
def flagWord (b : Bool) : Word := if b then 1 else 0

/-- The channel has been configured: IDLE, ARMED or DONE (R43, R194). -/
def configured : ChanState → Bool
  | .free => false
  | .claimed => false
  | .idle => true
  | .armed => true
  | .done => true

/-- The interrupt line `irq[d] = IP[d] and IE[d]` (R33, R199, R214). -/
def Half.irq (h : Half) : Bool := h.ip && h.ie

/-- The word of RDINTS: bit 0 `irq[IN]`, bit 1 `irq[OUT]`, the rest 0 (R171). -/
def rdintsWord (irqIn irqOut : Bool) : Word :=
  (0 : BitVec 30) ++ BitVec.ofBool irqOut ++ BitVec.ofBool irqIn

/-- The word of RDSTAT: XIDX 31:16, 0 15:9, FATAL 8, DIRN 7, IE 6, IP 5, RSEL 4, PEND 3, CST 2:0 (R172). -/
def rdstatWord (fatal : Bool) (h : Half) : Word :=
  h.xidx ++ (0 : BitVec 7) ++ BitVec.ofBool fatal ++ BitVec.ofBool h.dirn.bit ++ BitVec.ofBool h.ie ++
    BitVec.ofBool h.ip ++ BitVec.ofBool h.rsel.bit ++ BitVec.ofBool h.pend ++ h.cst.code

end Sys2Proof.Machine
end

