-- ==== Sys2Proof/Machine/Ops.lean ====
section
/-! DEFINITION. The named operations the meanings share: slot memory, the halves of the state, responses, the swap and
arm micro-operations, the completion handler (the machine's interrupt entry, R202 to R204), one word move, and taking
the environment's next step. -/

namespace Sys2Proof.Machine

/- Slot memory (R60 to R70). -/

/-- The byte at a byte address; a byte that is not listed is 0. -/
def cellsGet : List Host.Cell → Nat → BitVec 8
  | [], _ => 0
  | c :: r, k => if c.1 = k then c.2 else cellsGet r k

/-- A byte cell before the cells `r`, left out when it is 0. -/
def cellsPush (k : Nat) (v : BitVec 8) (r : List Host.Cell) : List Host.Cell :=
  if v = 0 then r else (k, v) :: r

/-- Storing a byte keeps the canonical form. -/
def cellsSet : List Host.Cell → Nat → BitVec 8 → List Host.Cell
  | [], k, v => cellsPush k v []
  | c :: r, k, v =>
    if k < c.1 then cellsPush k v (c :: r)
    else if c.1 = k then cellsPush k v r
    else c :: cellsSet r k v

/-- The byte of slot memory at a byte address of the byte view (R64). -/
def Memory.byte (m : Memory) (k : Nat) : BitVec 8 := cellsGet m.cells k

/-- The slot memory with one byte stored. -/
def Memory.setByte (m : Memory) (k : Nat) (v : BitVec 8) : Memory := ⟨cellsSet m.cells k v⟩

/-- Where byte `j` of word `a` lies (`j` = 0 is bits 7:0): the only use of BYTE_ORDER (R64). -/
def byteAddr (o : ByteOrder) (a j : Nat) : Nat :=
  match o with
  | .little => 4 * a + j
  | .big => 4 * a + (3 - j)

/-- `MemRead(d, a)`: the whole word at word address `a` (R10, R68). -/
def Memory.word (m : Memory) (o : ByteOrder) (a : Nat) : Word :=
  m.byte (byteAddr o a 3) ++ m.byte (byteAddr o a 2) ++ m.byte (byteAddr o a 1) ++ m.byte (byteAddr o a 0)

/-- `MemWrite(d, a, v)`: the whole word at word address `a` (R10, R68). -/
def Memory.setWord (m : Memory) (o : ByteOrder) (a : Nat) (v : Word) : Memory :=
  (((m.setByte (byteAddr o a 0) (v.extractLsb' 0 8)).setByte (byteAddr o a 1) (v.extractLsb' 8 8)).setByte
    (byteAddr o a 2) (v.extractLsb' 16 8)).setByte (byteAddr o a 3) (v.extractLsb' 24 8)

/-- The slot memory of 2N words that the given byte cells describe: cells beyond it are dropped, and of two cells with
one address the first wins. -/
def Memory.ofImage (n : Nat) : List Host.Cell → Memory
  | [] => ⟨[]⟩
  | c :: r => if c.1 < 8 * n then (Memory.ofImage n r).setByte c.1 c.2 else Memory.ofImage n r

/- The two halves (R20). -/

/-- The half of direction `d`. -/
def State.half (s : State) : Dir → Half
  | .inp => s.inHalf
  | .out => s.outHalf

/-- The state with another half of direction `d`. -/
def State.setHalf (s : State) (d : Dir) (h : Half) : State :=
  match d with
  | .inp => { s with inHalf := h }
  | .out => { s with outHalf := h }

/-- `MemRead` in the slot memory of direction `d` (R10, R61). -/
def State.loadWord (s : State) (d : Dir) (a : Nat) : Word := (s.half d).mem.word s.params.byteOrder a

/-- `MemWrite` in the slot memory of direction `d` (R10, R61). -/
def State.storeWord (s : State) (d : Dir) (a : Nat) (v : Word) : State :=
  s.setHalf d { s.half d with mem := (s.half d).mem.setWord s.params.byteOrder a v }

/- Output signals (R83, R190, R210, R211). -/

/-- `respond(code, data)`: the end of a host command (R10, R190). -/
def State.respond (s : State) (c : RespCode) (v : Word) : State :=
  { s with out := { resp := some { code := c, rdata := v }, rxPop := false, txPush := none } }

/-- `raise ERR_x`: respond with the code and 0 (R10, R190, R191). -/
def State.raise (s : State) (c : RespCode) : State := s.respond c 0

/-- The step of an internal event that drives no output. -/
def State.quiet (s : State) : State := { s with out := Outputs.quiet }

/-- `RxPop()` seen from outside: `rx_pop` is pulsed (R210). -/
def State.pulseRxPop (s : State) : State := { s with out := { Outputs.quiet with rxPop := true } }

/-- `TxPush(v)`: `tx_push` is pulsed with `tx_data = v`, and TXLOG records the word (R134, R211, R212). -/
def State.pushTx (s : State) (v : Word) : State :=
  { s with txlog := s.txlog ++ [v], out := { Outputs.quiet with txPush := some v } }

/- Micro-operations. -/

/-- `swap(d)`: if a swap is due, exchange the roles and clear PEND; else nothing (R100). It is effective exactly
when PEND was 1. -/
def Half.swap (h : Half) : Half :=
  if h.pend then { h with rsel := otherSlot h.rsel, pend := false } else h

/-- `arm(d)`: the address update, XIDX to 0, ARMED, and PEND set when REARM_SETS_PENDING (R130). -/
def Half.arm (p : Params) (d : Dir) (h : Half) : Half :=
  { h with addr := BitVec.ofNat 17 (slotBase p.n (dmaSlot d h)), xidx := 0, cst := .armed,
           pend := p.rearmSetsPending || h.pend }

/-- Step 0 of the completion handler: acknowledge the interrupt (R135, R202). -/
def Half.acknowledge (h : Half) : Half := { h with ip := false }

/-- Taking the completion interrupt: acknowledge, swap, arm, as one atomic step; nothing is saved and there is no
return (R135, R202, R203, R204). -/
def Half.handleCompletion (p : Params) (d : Dir) (h : Half) : Half := (h.acknowledge.swap).arm p d

/-- The end of a BEAT: XIDX counts the word; the last word of the block makes the channel DONE and raises the
completion interrupt (R134). -/
def Half.countWord (h : Half) : Half :=
  if h.xidx + 1 = h.len then { h with xidx := h.xidx + 1, cst := .done, ip := true }
  else { h with xidx := h.xidx + 1 }

/-- The channel of direction `d` after a BEAT. -/
def State.countWord (s : State) (d : Dir) : State := s.setHalf d (s.half d).countWord

/- Which steps of the hardware are enabled (R134, R135, R200). -/

/-- The request signal of direction `d`: `rx_valid` for IN, `tx_ready` for OUT (R210, R211). -/
def handshake (o : Oracle) : Dir → Bool
  | .inp => o.rxValid
  | .out => o.txReady

/-- BEAT d is enabled exactly when the channel is ARMED and its handshake is asserted (R134). -/
def State.beatEnabled (s : State) (d : Dir) : Bool :=
  decide ((s.half d).cst = .armed) && handshake s.oracle d

/-- ONCOMP d is enabled exactly when `irq[d]` is 1 (R135). -/
def State.oncompEnabled (s : State) (d : Dir) : Bool := (s.half d).irq

/-- The word move of an enabled BEAT (R134). The two guards stop where the spec proves no run comes (log 11). -/
def State.moveWord (s : State) (d : Dir) (x : Word) : Host.Outcome State Fault Refusal :=
  if 2 * s.params.n ≤ beatAddr (s.half d) then .fault (.noSuchAddress d (beatAddr (s.half d)))
  else if 65535 ≤ (s.half d).xidx.toNat then .fault (.indexOverflow d)
  else
    match d with
    | .inp => .next ((s.storeWord .inp (beatAddr s.inHalf) x).countWord .inp).pulseRxPop
    | .out => .next ((s.countWord .out).pushTx (s.loadWord .out (beatAddr s.outHalf)))

/- The environment (R12, R13, R200). -/

/-- The next step: the first the environment has chosen, or a free one (R200; log 6). -/
def State.nextStimulus (s : State) : Stimulus :=
  match s.pending with
  | t :: _ => t
  | [] => Config.nextStimulus s.drawn

/-- The state in which that step is taken: it is no longer pending and the oracle's answers are those given with it. -/
def State.accept (s : State) : State :=
  match s.pending with
  | t :: r => { s with pending := r, oracle := t.oracle }
  | [] => { s with drawn := s.drawn + 1, oracle := (Config.nextStimulus s.drawn).oracle }

end Sys2Proof.Machine
end

