-- ==== Sys2Proof/Machine/DoubleBuffer.lean ====
section
/-! DEFINITION. The Double Buffer operations: SWAP, RDPTR, WRPTR, LDR, STW, LDS, STS (R101 to R107). -/

namespace Sys2Proof.Machine

/-- A load of word `i` of slot `sl` of direction `d`: ERR_ARG when `i >= N`, else the word (R65, R104, R106). -/
def State.loadSlot (s : State) (d : Dir) (sl : Slot) (i : Index) : State :=
  if indexOk s.params.n i then s.respond .ok (s.loadWord d (wordAddr s.params.n sl i)) else s.raise .errArg

/-- A store to word `i` of slot `sl` of direction `d`: ERR_ARG and no write when `i >= N` (R65, R105, R107). -/
def State.storeSlot (s : State) (d : Dir) (sl : Slot) (i : Index) (x : Word) : State :=
  if indexOk s.params.n i then (s.storeWord d (wordAddr s.params.n sl i) x).respond .ok 0 else s.raise .errArg

/-- SWAP d (R101): legal while the channel is not configured; `rdata[0]` = 1 when the roles were exchanged. -/
def execSwap (d : Dir) (s : State) : Host.Outcome State Fault Refusal :=
  if configured (s.half d).cst then .next (s.raise .errState)
  else .next ((s.setHalf d (s.half d).swap).respond .ok (flagWord (s.half d).pend))

/-- RDPTR d (R102): the word address of the slot in the reading role. -/
def execRdptr (d : Dir) (s : State) : Host.Outcome State Fault Refusal :=
  .next (s.respond .ok (BitVec.ofNat 32 (slotBase s.params.n (s.half d).reading)))

/-- WRPTR d (R103): the word address of the slot in the writing role. -/
def execWrptr (d : Dir) (s : State) : Host.Outcome State Fault Refusal :=
  .next (s.respond .ok (BitVec.ofNat 32 (slotBase s.params.n (s.half d).writing)))

/-- LDR d, i (R104): through the reading mux (R66). -/
def execLdr (d : Dir) (i : Index) (s : State) : Host.Outcome State Fault Refusal :=
  .next (s.loadSlot d (s.half d).reading i)

/-- STW d, i, X (R105): through the writing mux (R67). -/
def execStw (d : Dir) (i : Index) (x : Word) (s : State) : Host.Outcome State Fault Refusal :=
  .next (s.storeSlot d (s.half d).writing i x)

/-- LDS d, s, i (R106): the named slot, whatever its role. -/
def execLds (d : Dir) (sl : Slot) (i : Index) (s : State) : Host.Outcome State Fault Refusal :=
  .next (s.loadSlot d sl i)

/-- STS d, s, i, X (R107): the named slot, whatever its role. -/
def execSts (d : Dir) (sl : Slot) (i : Index) (x : Word) (s : State) : Host.Outcome State Fault Refusal :=
  .next (s.storeSlot d sl i x)

end Sys2Proof.Machine
end

