-- ==== Sys2Proof/Machine/Status.lean ====
section
/-! DEFINITION. NOP, the status reads and RESET (R170 to R176), and the answer to an illegal word (R192). -/

namespace Sys2Proof.Machine

/-- NOP (R170). -/
def execNop (s : State) : Host.Outcome State Fault Refusal := .next (s.respond .ok 0)

/-- RDINTS (R171). -/
def execRdints (s : State) : Host.Outcome State Fault Refusal :=
  .next (s.respond .ok (rdintsWord s.inHalf.irq s.outHalf.irq))

/-- RDSTAT d (R172). -/
def execRdstat (d : Dir) (s : State) : Host.Outcome State Fault Refusal :=
  .next (s.respond .ok (rdstatWord s.fatal (s.half d)))

/-- RDADDR d (R173). -/
def execRdaddr (d : Dir) (s : State) : Host.Outcome State Fault Refusal :=
  .next (s.respond .ok ((s.half d).addr.zeroExtend 32))

/-- RDLEN d (R174). -/
def execRdlen (d : Dir) (s : State) : Host.Outcome State Fault Refusal :=
  .next (s.respond .ok ((s.half d).len.zeroExtend 32))

/-- RESET (R176, R230): every piece of state to its reset value; the slot contents are unspecified and come from the
oracle (log 4). The parameters and the environment's own data are not DBSC's to reset (log 17). -/
def execReset (s : State) : Host.Outcome State Fault Refusal :=
  .next { s with
    inHalf := Half.afterReset (Memory.ofImage s.params.n s.oracle.slotsIn)
    outHalf := Half.afterReset (Memory.ofImage s.params.n s.oracle.slotsOut)
    fatal := false
    poolFree := s.params.pool0
    txlog := []
    out := Outputs.quiet }

/-- A word that decodes to no host command, presented on the command port: ERR_ILLEGAL, no state change (R88, R89,
R192). -/
def rejectWord (s : State) : Host.Outcome State Fault Refusal := .next (s.raise .errIllegal)

end Sys2Proof.Machine
end

