-- ==== Sys2Proof/Machine/TransferEngine.lean ====
section
/-! DEFINITION. The Transfer Engine operations: CLAIM, CONFIG, START, BEAT, ONCOMP (R131 to R135). Checks are made in the
order of R197: FATAL, channel state, operands, pool. -/

namespace Sys2Proof.Machine

/-- CLAIM d (R131): one free id, drawn by the oracle (log 9), leaves the pool and belongs to the channel; an empty pool
sets FATAL and answers ERR_NORES (R196). -/
def execClaim (d : Dir) (s : State) : Host.Outcome State Fault Refusal :=
  if s.fatal then .next (s.raise .errFatal)
  else if (s.half d).cst ≠ .free then .next (s.raise .errState)
  else
    match drawId s.poolFree s.oracle.draw with
    | none => .next (State.raise { s with fatal := true } .errNores)
    | some id =>
      .next (({ s with poolFree := s.poolFree.filter (· ≠ id) }.setHalf d
        { s.half d with id := some id, cst := .claimed }).respond .ok (BitVec.ofNat 32 id.val))

/-- CONFIG d, r, s, k (R132): binds the channel to the slot it will work on; does not start it. -/
def execConfig (d : Dir) (r : DevDir) (sl : Slot) (k : Index) (s : State) : Host.Outcome State Fault Refusal :=
  if s.fatal then .next (s.raise .errFatal)
  else if (s.half d).cst ≠ .claimed then .next (s.raise .errState)
  else if configArgsOk s.params.n d (s.half d) r sl k then
    .next ((s.setHalf d { s.half d with
      dirn := r, addr := BitVec.ofNat 17 (slotBase s.params.n sl), len := k, xidx := 0, ie := true,
      cst := .idle }).respond .ok 0)
  else .next (s.raise .errArg)

/-- START d (R133): the first trigger; sets PEND as an arm does and leaves ADDR as CONFIG bound it. -/
def execStart (d : Dir) (s : State) : Host.Outcome State Fault Refusal :=
  if s.fatal then .next (s.raise .errFatal)
  else if (s.half d).cst ≠ .idle then .next (s.raise .errState)
  else
    .next ((s.setHalf d { s.half d with
      xidx := 0, cst := .armed, pend := s.params.rearmSetsPending || (s.half d).pend }).respond .ok 0)

/-- BEAT d (R134): the channel moves one word; a BEAT that is not enabled does not happen and leaves no trace
(R134, R138; log 8). -/
def execBeat (d : Dir) (x : Word) (s : State) : Host.Outcome State Fault Refusal :=
  if s.beatEnabled d then s.moveWord d x else .next s.quiet

/-- ONCOMP d (R135): the completion handler, one atomic step; not enabled, it does not happen (log 8). -/
def execOncomp (d : Dir) (s : State) : Host.Outcome State Fault Refusal :=
  if s.oncompEnabled d then .next (s.setHalf d ((s.half d).handleCompletion s.params d)).quiet
  else .next s.quiet

end Sys2Proof.Machine
end

