-- ==== Sys2Proof/Machine/Dispatch.lean ====
section
/-! DEFINITION. The meaning of every operation, arm by arm. -/

namespace Sys2Proof.Machine

def exec (i : Instr) (s : State) : Host.Outcome State Fault Refusal :=
  match i with
  | .nop => Sys2Proof.Machine.execNop s
  | .claim d => Sys2Proof.Machine.execClaim d s
  | .config d r sl k => Sys2Proof.Machine.execConfig d r sl k s
  | .start d => Sys2Proof.Machine.execStart d s
  | .swap d => Sys2Proof.Machine.execSwap d s
  | .rdptr d => Sys2Proof.Machine.execRdptr d s
  | .wrptr d => Sys2Proof.Machine.execWrptr d s
  | .ldr d k => Sys2Proof.Machine.execLdr d k s
  | .stw d k x => Sys2Proof.Machine.execStw d k x s
  | .lds d sl k => Sys2Proof.Machine.execLds d sl k s
  | .sts d sl k x => Sys2Proof.Machine.execSts d sl k x s
  | .rdints => Sys2Proof.Machine.execRdints s
  | .rdstat d => Sys2Proof.Machine.execRdstat d s
  | .rdaddr d => Sys2Proof.Machine.execRdaddr d s
  | .rdlen d => Sys2Proof.Machine.execRdlen d s
  | .beat d x => Sys2Proof.Machine.execBeat d x s
  | .oncomp d => Sys2Proof.Machine.execOncomp d s
  | .reset => Sys2Proof.Machine.execReset s

end Sys2Proof.Machine
end

