-- ==== Sys2Proof/Machine/Step.lean ====
section
/-! DEFINITION. One step of DBSC: the environment's next step is taken (R12, R80, R200). There is no program counter and
no fetch from memory (R26, R74): what runs next comes from outside. -/

namespace Sys2Proof.Machine

/-- One step: a word on the command port runs as the host command it decodes to or answers ERR_ILLEGAL (R83, R192); a
step of the hardware runs the event its label names (R80, R86). -/
def step (s : State) : Host.Outcome State Fault Refusal :=
  match s.nextStimulus.source with
  | .port =>
    match decodeCommand s.nextStimulus.label s.nextStimulus.data with
    | some i => exec i s.accept
    | none => rejectWord s.accept
  | .hardware =>
    match decodeEvent s.nextStimulus.label s.nextStimulus.data with
    | some i => exec i s.accept
    | none => .refused (.notAnEvent s.nextStimulus.label)

/-- The stimulus that offers a label as a trace does (R80): a word with CLS = 0 on the command port, an event word as a
step of the hardware. The oracle's answers that go with it are the model's choice (DESIGN CHOICE, unsafe, log 7), for the
spec leaves each of them open: both handshakes asserted (R210, R211), the draw 0, so that a CLAIM takes the lowest free
id (R35, R131), and no slot cells, so that a RESET leaves every slot word 0 (SLOT0, R6, R40, R176). -/
def stimulusOf (l x : Word) : Stimulus :=
  { source := if isEventWord l then .hardware else .port
    label := l
    data := x
    oracle := { rxValid := true, txReady := true, draw := 0, slotsIn := [], slotsOut := [] } }

/-- `s` with the label in the `nbits` bits of `w` (L in bits 31..0, X in bits 63..32) as the step the environment takes
next; the oracle's answers with it are those `stimulusOf` chooses (log 7). -/
def State.withFetchWord (s : State) (nbits w : Nat) : State :=
  let v := w % 2 ^ nbits
  { s with pending := stimulusOf (BitVec.ofNat 32 v) (BitVec.ofNat 32 (v / 2 ^ 32)) :: s.pending }

end Sys2Proof.Machine
end

