-- ==== Sys2Proof/Machine/Assembler.lean ====
section
/-! DEFINITION. The text of labels in traces (R93) and the pseudo-instructions (R94). No step reads them
(log 21). -/

namespace Sys2Proof.Machine

/-- A number as `0x` hexadecimal (R8, R93), with the capital digits of the examples of R93. -/
def hexText (v : Nat) : String := "0x" ++ String.ofList ((Nat.toDigits 16 v).map Char.toUpper)

/-- `IN` or `OUT` (R93). -/
def dirText : Dir → String
  | .inp => "IN"
  | .out => "OUT"

/-- `A` or `B` (R93). -/
def slotText : Slot → String
  | .a => "A"
  | .b => "B"

/-- `RD` or `WR` (R93). -/
def devDirText : DevDir → String
  | .rd => "RD"
  | .wr => "WR"

/-- The operands of an operation in the order d, r, s, i or k, X (R93); `X` is `#` before a number. -/
def operandTexts : Instr → List String
  | .nop => []
  | .claim d => [dirText d]
  | .config d r sl k => [dirText d, devDirText r, slotText sl, Nat.repr k.toNat]
  | .start d => [dirText d]
  | .swap d => [dirText d]
  | .rdptr d => [dirText d]
  | .wrptr d => [dirText d]
  | .ldr d i => [dirText d, Nat.repr i.toNat]
  | .stw d i x => [dirText d, Nat.repr i.toNat, "#" ++ hexText x.toNat]
  | .lds d sl i => [dirText d, slotText sl, Nat.repr i.toNat]
  | .sts d sl i x => [dirText d, slotText sl, Nat.repr i.toNat, "#" ++ hexText x.toNat]
  | .rdints => []
  | .rdstat d => [dirText d]
  | .rdaddr d => [dirText d]
  | .rdlen d => [dirText d]
  | .beat .inp x => [dirText .inp, "#" ++ hexText x.toNat]
  | .beat .out _ => [dirText .out]
  | .oncomp d => [dirText d]
  | .reset => []

/-- Texts joined by a comma and a space. -/
def joinOperands : List String → String
  | [] => ""
  | [t] => t
  | t :: r => t ++ ", " ++ joinOperands r

/-- One label as a line of a trace (R93). -/
def asmText (i : Instr) : String :=
  match operandTexts i with
  | [] => i.mnemonic
  | ts => i.mnemonic ++ " " ++ joinOperands ts

/-- The pseudo-instructions of R94. -/
inductive Pseudo where
  | init (d : Dir)
  | fillw (d : Dir) (xs : List Word)
  | fills (d : Dir) (sl : Slot) (xs : List Word)
  | rxblock (xs : List Word)
  | txblock
  | completeIn (xs : List Word)
  | completeOut
deriving DecidableEq, Repr

/-- `RXBLOCK` (R94): one BEAT IN for each word. -/
def rxBlock (xs : List Word) : List Instr := xs.map (fun x => .beat .inp x)

/-- `TXBLOCK` (R94): BEAT OUT repeated N times. -/
def txBlock (n : Nat) : List Instr := List.replicate n (.beat .out 0)

/-- `INIT d` (R94): claim, configure on the slot the channel will work on, start. -/
def initSeq (p : Params) (d : Dir) (h : Half) : List Instr :=
  [.claim d, .config d (devDirOf d) (dmaSlot d h) (BitVec.ofNat 16 p.n), .start d]

/-- What a pseudo-instruction stands for in state `s` (R94). -/
def expandPseudo (s : State) : Pseudo → List Instr
  | .init d => initSeq s.params d (s.half d)
  | .fillw d xs => xs.zipIdx.map (fun e => .stw d (BitVec.ofNat 16 e.2) e.1)
  | .fills d sl xs => xs.zipIdx.map (fun e => .sts d sl (BitVec.ofNat 16 e.2) e.1)
  | .rxblock xs => rxBlock xs
  | .txblock => txBlock s.params.n
  | .completeIn xs => rxBlock xs ++ [.oncomp .inp]
  | .completeOut => txBlock s.params.n ++ [.oncomp .out]

end Sys2Proof.Machine
end

