-- ==== Sys2Proof/Safety.lean ====
section
/-! DEFINITION. What claims about runs speak of: the invariants R41 to R47, sequences of operations, and weakly fair runs
(R200). -/

namespace Sys2Proof.Machine

/-- What holds of the half of direction `d` in every reachable state (R29, R41 to R45, R47). -/
structure Half.Inv (p : Params) (d : Dir) (h : Half) : Prop where
  /-- R42 -/
  ip_iff : h.ip = true ↔ h.cst = .done
  /-- R43 -/
  ie_iff : h.ie = true ↔ configured h.cst = true
  /-- R44 -/
  addr_dma : configured h.cst = true → h.addr.toNat = slotBase p.n (dmaSlot d h)
  /-- R45: ADDR is 0 or N in every state -/
  addr_range : h.addr.toNat = 0 ∨ h.addr.toNat = p.n
  /-- R45, R31 -/
  len_eq : configured h.cst = true → h.len.toNat = p.n
  /-- R45 -/
  xidx_idle : h.cst = .idle → h.xidx = 0
  /-- R45 -/
  xidx_armed : h.cst = .armed → h.xidx.toNat < p.n
  /-- R45 -/
  xidx_done : h.cst = .done → h.xidx.toNat = p.n
  /-- R29 -/
  dirn_eq : configured h.cst = true → h.dirn = devDirOf d
  /-- R47 -/
  pend_due : p.rearmSetsPending = true → h.cst = .armed ∨ h.cst = .done → h.pend = true
  /-- R27, R28: a channel owns a resource exactly when it is not FREE -/
  id_iff : h.id = none ↔ h.cst = .free
  /-- the slot memory keeps its canonical form -/
  mem_wf : h.mem.wf = true
  /-- R61: the slot memory has 2N words, 8N byte cells -/
  mem_range : ∀ c ∈ h.mem.cells, c.1 < 8 * p.n

/-- What holds of every reachable state (R29, R41 to R47). -/
structure State.Inv (s : State) : Prop where
  /-- R6 -/
  params_wf : s.params.wf = true
  /-- R29, R41 to R45, R47 -/
  half : ∀ d, (s.half d).Inv s.params d
  /-- the pool is listed in rising order -/
  pool_rising : idsRising s.poolFree = true
  /-- R46: an owned id is not in the pool -/
  id_owned : ∀ d id, (s.half d).id = some id → id ∉ s.poolFree
  /-- R46: the two channels own different ids -/
  ids_differ : ∀ id, s.inHalf.id = some id → s.outHalf.id ≠ some id

/-- The operations of a list, one step after another, with the environment's answers held as they are in `s`. -/
def execAll : List Instr → State → Host.Outcome State Fault Refusal
  | [], s => .next s
  | i :: r, s =>
    match exec i s with
    | .next t => execAll r t
    | .fault f => .fault f
    | .refused f => .refused f

/-- The direction whose half an operation is about; NOP, RDINTS and RESET have none (R20). -/
def instrDir : Instr → Option Dir
  | .nop => none
  | .claim d => some d
  | .config d _ _ _ => some d
  | .start d => some d
  | .swap d => some d
  | .rdptr d => some d
  | .wrptr d => some d
  | .ldr d _ => some d
  | .stw d _ _ => some d
  | .lds d _ _ => some d
  | .sts d _ _ _ => some d
  | .rdints => none
  | .rdstat d => some d
  | .rdaddr d => some d
  | .rdlen d => some d
  | .beat d _ => some d
  | .oncomp d => some d
  | .reset => none

/-- An infinite run as the labelled sequence of steps it is (R12, R200): at every moment one operation `ops n` is taken
with some answers `answers n` of the oracle, and leads to the next state. -/
def IsRun (σ : Nat → State) (ops : Nat → Instr) (answers : Nat → Oracle) : Prop :=
  ∀ n, exec (ops n) { σ n with oracle := answers n } = .next (σ (n + 1))

/-- BEAT d is enabled at moment `n` of a run: ARMED, and the handshake asserted in the oracle's answers (R134, R200). -/
def beatEnabledAt (σ : Nat → State) (answers : Nat → Oracle) (d : Dir) (n : Nat) : Prop :=
  ((σ n).half d).cst = .armed ∧ handshake (answers n) d = true

/-- Weak fairness of the hardware's own steps (R200; log 14): a BEAT or an ONCOMP that stays enabled is eventually taken.
Nothing is asked of the host or of the handshakes. -/
def WeaklyFair (σ : Nat → State) (ops : Nat → Instr) (answers : Nat → Oracle) : Prop :=
  ∀ d n,
    ((∀ m, n ≤ m → beatEnabledAt σ answers d m) → ∃ m, n ≤ m ∧ ∃ x, ops m = .beat d x) ∧
    ((∀ m, n ≤ m → (σ m).oncompEnabled d = true) → ∃ m, n ≤ m ∧ ops m = .oncomp d)

/-- Two states that differ at most in BYTE_ORDER and in where the bytes of their slot words lie (R64). -/
structure SameWords (s t : State) : Prop where
  params : t.params = { s.params with byteOrder := t.params.byteOrder }
  half : ∀ d, t.half d = { s.half d with mem := (t.half d).mem }
  words : ∀ d a, t.loadWord d a = s.loadWord d a
  mem_wf : ∀ d, (s.half d).mem.wf = true ∧ (t.half d).mem.wf = true
  fatal : t.fatal = s.fatal
  poolFree : t.poolFree = s.poolFree
  txlog : t.txlog = s.txlog
  oracle : t.oracle = s.oracle
  pending : t.pending = s.pending
  drawn : t.drawn = s.drawn
  out : t.out = s.out

/-- The reads: operations that change no state (R175). -/
def isRead : Instr → Bool
  | .nop => true
  | .rdints => true
  | .rdstat _ => true
  | .rdaddr _ => true
  | .rdlen _ => true
  | .rdptr _ => true
  | .wrptr _ => true
  | .ldr _ _ => true
  | .lds _ _ _ => true
  | .claim _ => false
  | .config _ _ _ _ => false
  | .start _ => false
  | .swap _ => false
  | .stw _ _ _ => false
  | .sts _ _ _ _ => false
  | .beat _ _ => false
  | .oncomp _ => false
  | .reset => false

/-- The number of effective swaps of direction `d` a sequence of operations makes (R108): SWAPs and ONCOMPs that find
PEND = 1 and are executed. -/
def effectiveSwaps (d : Dir) : List Instr → State → Nat
  | [], _ => 0
  | i :: r, s =>
    let here : Nat :=
      if (i = .swap d ∧ configured (s.half d).cst = false ∨ i = .oncomp d ∧ s.oncompEnabled d = true) ∧
          (s.half d).pend = true then 1 else 0
    match exec i s with
    | .next t => here + effectiveSwaps d r t
    | _ => here

end Sys2Proof.Machine
end

