-- ==== Sys2Proof/Certificates/Slice0/Obligations.lean ====
section
/-! DEFINITION. The statements about DBSC, from the numbered rules of the spec. `out := ⟨some ⟨c, v⟩, false, none⟩` is the
answer (c, v) on the command port with no pulse; `⟨none, false, none⟩` is no output at all. -/

open Sys2Proof Sys2Proof.Machine

/- Encoding. -/

/-- R81 to R86, R95: decoding the label of a well-formed operation gives it back, every operand at every value. -/
def Obligations.DecodeEncodeRoundTrip : Prop :=
  ∀ i : Instr, i.wf = true → decode (encode i).1 (encode i).2 = some i

/-- R87, R82: a word has one meaning only: encoding what a label decodes to gives the word back, and the data operand too
unless the operation ignores it (then it is written as 0); what is decoded is well-formed. -/
def Obligations.EncodeDecodeRoundTrip : Prop :=
  ∀ (l x : Word) (i : Instr), decode l x = some i →
    i.wf = true ∧ (encode i).1 = l ∧ ((encode i).2 = x ∨ ((encode i).2 = 0 ∧ ∀ y, decode l y = some i))

/-- R85, R86, R87, R88: the decoder follows the masks and matches of the opcode map: a decoded word selects exactly the
row of its operation, and a word is illegal exactly when it selects no row. -/
def Obligations.DecoderFollowsOpcodeMap : Prop :=
  ∀ l x : Word,
    (∀ i, decode l x = some i → ∀ r ∈ opcodeMap, r.selects l = true ↔ r.mnemonic = i.mnemonic) ∧
    (decode l x = none ↔ ∀ r ∈ opcodeMap, r.selects l = false)

/-- R88, R89: what the command port refuses to decode, by the fields of R81: a word with CLS = 1, the reserved opcode
0xF, a non-zero ZERO field, and a non-zero field that the operation's format does not use. -/
def Obligations.IllegalCommandWords : Prop :=
  ∀ l x : Word,
    decodeCommand l x = none ↔
      l.getLsbD 31 = true ∨
      (l.extractLsb' 27 4).toNat = 15 ∨
      l.extractLsb' 16 8 ≠ 0 ∨
      (l.getLsbD 26 = true ∧ (l.extractLsb' 27 4).toNat ∈ [0, 11]) ∨
      (l.getLsbD 25 = true ∧ (l.extractLsb' 27 4).toNat ∉ [2, 9, 10]) ∨
      (l.getLsbD 24 = true ∧ (l.extractLsb' 27 4).toNat ≠ 2) ∨
      (l.extractLsb' 0 16 ≠ 0 ∧ (l.extractLsb' 27 4).toNat ∉ [2, 7, 8, 9, 10])

/-- R95: the spec's own example words. -/
def Obligations.ExampleWordsDecode : Prop :=
  decode 0x12000008 0 = some (.config .inp .rd .b 8) ∧
  decode 0x15000008 0 = some (.config .out .wr .a 8) ∧
  decode 0x24000000 0 = some (.swap .out) ∧
  decode 0x38000003 0 = some (.ldr .inp 3) ∧
  decode 0x44000003 0x11 = some (.stw .out 3 0x11) ∧
  decode 0x4A000000 0 = some (.lds .inp .b 0) ∧
  decode 0x80000000 0xCAFE0001 = some (.beat .inp 0xCAFE0001) ∧
  decode 0x84000000 0 = some (.beat .out 0) ∧
  decode 0x8C000000 0 = some (.oncomp .out) ∧
  decode 0xF8000000 0 = some .reset

/- The step. -/

/-- R12, R80, R83, R89: a step runs the operation its label decodes to: a host command from the command port, an event
as a step of the hardware. What the step adds: the label is no longer pending and the oracle's answers are those given
with it. The second clause is the model's choice, for R200 does not determine which step comes next (log 6, DEDUCED):
when the environment has chosen nothing, the step is that of the free value for this moment, and is counted. -/
def Obligations.StepRunsDecodedLabel : Prop :=
  (∀ (s : State) (t : Stimulus) (r : List Stimulus) (i : Instr),
    s.pending = t :: r →
    decode t.label t.data = some i →
    (t.source = .port ∧ i.isEvent = false ∨ t.source = .hardware ∧ i.isEvent = true) →
    step s = exec i { s with pending := r, oracle := t.oracle }) ∧
  (∀ s : State, s.pending = [] →
    step s = step { s with pending := [Config.nextStimulus s.drawn], drawn := s.drawn + 1 })

/-- R88, R89, R192: a word that decodes to no operation, and an event word, presented on the command port answers
ERR_ILLEGAL with `rdata` 0 and changes no state. -/
def Obligations.IllegalWordAnswersErrIllegal : Prop :=
  ∀ (s : State) (t : Stimulus) (r : List Stimulus),
    s.pending = t :: r → t.source = .port →
    (decode t.label t.data = none ∨ t.label.getLsbD 31 = true) →
    step s = .next { s with pending := r, oracle := t.oracle, out := ⟨some ⟨.errIllegal, 0⟩, false, none⟩ }

/-- R190: the response codes and the channel states (R27) have the values of their tables; no code is 6 or 7. -/
def Obligations.CodesOfTheTables : Prop :=
  RespCode.code .ok = 0 ∧ RespCode.code .errIllegal = 1 ∧ RespCode.code .errState = 2 ∧ RespCode.code .errArg = 3 ∧
  RespCode.code .errNores = 4 ∧ RespCode.code .errFatal = 5 ∧ (∀ c : RespCode, c.code.toNat < 6) ∧
  ChanState.code .free = 0 ∧ ChanState.code .claimed = 1 ∧ ChanState.code .idle = 2 ∧ ChanState.code .armed = 3 ∧
  ChanState.code .done = 4

/- Status reads and NOP. -/

/-- R170. -/
def Obligations.NopAnswersOk : Prop :=
  ∀ s : State, exec .nop s = .next { s with out := ⟨some ⟨.ok, 0⟩, false, none⟩ }

/-- R171: bit 0 is `irq[IN]`, bit 1 `irq[OUT]`, the rest 0; nothing is cleared. -/
def Obligations.RdintsReturnsIrqLines : Prop :=
  ∀ s : State, ∃ v : Word,
    exec .rdints s = .next { s with out := ⟨some ⟨.ok, v⟩, false, none⟩ } ∧
    v.getLsbD 0 = (s.inHalf.ip && s.inHalf.ie) ∧
    v.getLsbD 1 = (s.outHalf.ip && s.outHalf.ie) ∧
    v.extractLsb' 2 30 = 0

/-- R172: every field of the status word. -/
def Obligations.RdstatReturnsStatusFields : Prop :=
  ∀ (s : State) (d : Dir), ∃ v : Word,
    exec (.rdstat d) s = .next { s with out := ⟨some ⟨.ok, v⟩, false, none⟩ } ∧
    (v.extractLsb' 0 3).toNat =
      (match (s.half d).cst with
        | .free => 0
        | .claimed => 1
        | .idle => 2
        | .armed => 3
        | .done => 4) ∧
    v.getLsbD 3 = (s.half d).pend ∧
    v.getLsbD 4 = decide ((s.half d).rsel = .b) ∧
    v.getLsbD 5 = (s.half d).ip ∧
    v.getLsbD 6 = (s.half d).ie ∧
    v.getLsbD 7 = decide ((s.half d).dirn = .wr) ∧
    v.getLsbD 8 = s.fatal ∧
    v.extractLsb' 9 7 = 0 ∧
    v.extractLsb' 16 16 = (s.half d).xidx

/-- R173. -/
def Obligations.RdaddrReturnsAddr : Prop :=
  ∀ (s : State) (d : Dir), ∃ v : Word,
    exec (.rdaddr d) s = .next { s with out := ⟨some ⟨.ok, v⟩, false, none⟩ } ∧ v.toNat = (s.half d).addr.toNat

/-- R174. -/
def Obligations.RdlenReturnsLen : Prop :=
  ∀ (s : State) (d : Dir), ∃ v : Word,
    exec (.rdlen d) s = .next { s with out := ⟨some ⟨.ok, v⟩, false, none⟩ } ∧ v.toNat = (s.half d).len.toNat

/-- R175: the reads change no state, and do not change what any later step does or returns. -/
def Obligations.ReadsChangeNothing : Prop :=
  ∀ (i : Instr) (s : State), isRead i = true →
    ∃ t, exec i s = .next t ∧ t = { s with out := t.out } ∧ ∀ j, exec j t = exec j s

/- The Double Buffer. -/

/-- R102, R103: the word address of the slot in the reading role and of the slot in the writing role. -/
def Obligations.PointersReturnRoleBases : Prop :=
  ∀ (s : State) (d : Dir),
    exec (.rdptr d) s = .next { s with out :=
      ⟨some ⟨.ok, if (s.half d).rsel = .a then 0 else BitVec.ofNat 32 s.params.n⟩, false, none⟩ } ∧
    exec (.wrptr d) s = .next { s with out :=
      ⟨some ⟨.ok, if (s.half d).rsel = .a then BitVec.ofNat 32 s.params.n else 0⟩, false, none⟩ }

/-- R41, R103: in every state the two roles are different slots, and RDPTR and WRPTR answer different addresses, one 0 and
the other N. -/
def Obligations.PointersNeverEqual : Prop :=
  ∀ (s : State) (d : Dir), (s.half d).reading ≠ (s.half d).writing ∧ (s.params.wf = true →
    ∃ v w : Word,
      exec (.rdptr d) s = .next { s with out := ⟨some ⟨.ok, v⟩, false, none⟩ } ∧
      exec (.wrptr d) s = .next { s with out := ⟨some ⟨.ok, w⟩, false, none⟩ } ∧
      v ≠ w ∧ (v.toNat = 0 ∧ w.toNat = s.params.n ∨ v.toNat = s.params.n ∧ w.toNat = 0))

/-- R104: LDR reads the slot in the reading role; `i >= N` answers ERR_ARG; nothing else changes. -/
def Obligations.LdrReadsReadingSlot : Prop :=
  ∀ (s : State) (d : Dir) (i : Index),
    (i.toNat < s.params.n →
      exec (.ldr d i) s = .next { s with out :=
        ⟨some ⟨.ok, s.loadWord d (wordAddr s.params.n (s.half d).reading i)⟩, false, none⟩ }) ∧
    (s.params.n ≤ i.toNat →
      exec (.ldr d i) s = .next { s with out := ⟨some ⟨.errArg, 0⟩, false, none⟩ })

/-- R106: LDS reads the named slot whatever its role; `i >= N` answers ERR_ARG; nothing else changes. -/
def Obligations.LdsReadsNamedSlot : Prop :=
  ∀ (s : State) (d : Dir) (sl : Slot) (i : Index),
    (i.toNat < s.params.n →
      exec (.lds d sl i) s = .next { s with out :=
        ⟨some ⟨.ok, s.loadWord d (wordAddr s.params.n sl i)⟩, false, none⟩ }) ∧
    (s.params.n ≤ i.toNat →
      exec (.lds d sl i) s = .next { s with out := ⟨some ⟨.errArg, 0⟩, false, none⟩ })

/-- R105: STW stores the whole word X in the slot in the writing role: it reads back, every other byte of the slot
memory reads as before, nothing else changes; `i >= N` answers ERR_ARG with no write. -/
def Obligations.StwStoresWritingSlot : Prop :=
  ∀ (s : State) (d : Dir) (i : Index) (x : Word), (s.half d).mem.wf = true →
    (i.toNat < s.params.n →
      ∃ t, exec (.stw d i x) s = .next t ∧
        t.loadWord d (wordAddr s.params.n (s.half d).writing i) = x ∧
        (∀ k, k / 4 ≠ wordAddr s.params.n (s.half d).writing i → (t.half d).mem.byte k = (s.half d).mem.byte k) ∧
        (t.half d).mem.wf = true ∧
        t = State.setHalf { s with out := ⟨some ⟨.ok, 0⟩, false, none⟩ } d
          { s.half d with mem := (t.half d).mem }) ∧
    (s.params.n ≤ i.toNat →
      exec (.stw d i x) s = .next { s with out := ⟨some ⟨.errArg, 0⟩, false, none⟩ })

/-- R107: STS stores the whole word X in the named slot whatever its role; otherwise as STW. -/
def Obligations.StsStoresNamedSlot : Prop :=
  ∀ (s : State) (d : Dir) (sl : Slot) (i : Index) (x : Word), (s.half d).mem.wf = true →
    (i.toNat < s.params.n →
      ∃ t, exec (.sts d sl i x) s = .next t ∧
        t.loadWord d (wordAddr s.params.n sl i) = x ∧
        (∀ k, k / 4 ≠ wordAddr s.params.n sl i → (t.half d).mem.byte k = (s.half d).mem.byte k) ∧
        (t.half d).mem.wf = true ∧
        t = State.setHalf { s with out := ⟨some ⟨.ok, 0⟩, false, none⟩ } d
          { s.half d with mem := (t.half d).mem }) ∧
    (s.params.n ≤ i.toNat →
      exec (.sts d sl i x) s = .next { s with out := ⟨some ⟨.errArg, 0⟩, false, none⟩ })

/-- R100, R101: SWAP exchanges the roles and clears PEND when a swap is due, changes nothing when none is due, and is
refused with ERR_STATE once the channel is configured. -/
def Obligations.SwapExchangesRolesWhenDue : Prop :=
  ∀ (s : State) (d : Dir),
    ((s.half d).cst = .free ∨ (s.half d).cst = .claimed →
      ((s.half d).pend = true →
        exec (.swap d) s = .next (State.setHalf { s with out := ⟨some ⟨.ok, 1⟩, false, none⟩ } d
          { s.half d with rsel := (if (s.half d).rsel = .a then .b else .a), pend := false })) ∧
      ((s.half d).pend = false →
        exec (.swap d) s = .next { s with out := ⟨some ⟨.ok, 0⟩, false, none⟩ })) ∧
    ((s.half d).cst = .idle ∨ (s.half d).cst = .armed ∨ (s.half d).cst = .done →
      exec (.swap d) s = .next { s with out := ⟨some ⟨.errState, 0⟩, false, none⟩ })

/-- R100: of two SWAPs in direct succession the second is a no-op that answers OK with 0. -/
def Obligations.SecondSwapIsNoOp : Prop :=
  ∀ (s : State) (d : Dir), (s.half d).cst = .free ∨ (s.half d).cst = .claimed →
    ∃ t, exec (.swap d) s = .next t ∧
      exec (.swap d) t = .next { t with out := ⟨some ⟨.ok, 0⟩, false, none⟩ }

/-- R109: after an effective swap LDR returns the words that were in the writing slot, and the slot now in the writing
role holds the words of the old reading slot, unchanged. -/
def Obligations.SwapPublishesWritingSlot : Prop :=
  ∀ (s : State) (d : Dir), (s.half d).pend = true → ((s.half d).cst = .free ∨ (s.half d).cst = .claimed) →
    ∃ t, exec (.swap d) s = .next t ∧
      ∀ i : Index, i.toNat < s.params.n →
        exec (.ldr d i) t = .next { t with out :=
          ⟨some ⟨.ok, s.loadWord d (wordAddr s.params.n (s.half d).writing i)⟩, false, none⟩ } ∧
        exec (.lds d (t.half d).writing i) t = .next { t with out :=
          ⟨some ⟨.ok, s.loadWord d (wordAddr s.params.n (s.half d).reading i)⟩, false, none⟩ }

/-- R70: a stored word is what the next load of that word returns, and a load of any other word of that direction
returns what it returned before. -/
def Obligations.StoreThenLoad : Prop :=
  ∀ (s : State) (d : Dir) (sl sl' : Slot) (i j : Index) (x : Word),
    (s.half d).mem.wf = true → i.toNat < s.params.n → j.toNat < s.params.n →
    ∃ t, exec (.sts d sl i x) s = .next t ∧
      exec (.lds d sl' j) t = .next { t with out :=
        ⟨some ⟨.ok, if sl' = sl ∧ j = i then x else s.loadWord d (wordAddr s.params.n sl' j)⟩, false, none⟩ }

/-- R108: after e effective swaps of a direction, counted from a state whose reading slot is A, the reading slot is A
when e is even and B when e is odd, whatever operations but RESET are run. -/
def Obligations.EffectiveSwapsAlternateRoles : Prop :=
  ∀ (is : List Instr) (s t : State) (d : Dir),
    (s.half d).rsel = .a → Instr.reset ∉ is → execAll is s = .next t →
    (t.half d).rsel = if effectiveSwaps d is s % 2 = 0 then .a else .b

/- The Transfer Engine. -/

/-- R131, R193, R196, R197: CLAIM in each case, in the order of its checks. -/
def Obligations.ClaimTakesOneFreeId : Prop :=
  ∀ (s : State) (d : Dir),
    (s.fatal = true → exec (.claim d) s = .next { s with out := ⟨some ⟨.errFatal, 0⟩, false, none⟩ }) ∧
    (s.fatal = false → (s.half d).cst ≠ .free →
      exec (.claim d) s = .next { s with out := ⟨some ⟨.errState, 0⟩, false, none⟩ }) ∧
    (s.fatal = false → (s.half d).cst = .free → s.poolFree = [] →
      exec (.claim d) s = .next { s with fatal := true, out := ⟨some ⟨.errNores, 0⟩, false, none⟩ }) ∧
    (s.fatal = false → (s.half d).cst = .free → s.poolFree ≠ [] →
      ∃ id ∈ s.poolFree,
        exec (.claim d) s = .next (State.setHalf
          { s with poolFree := s.poolFree.filter (· ≠ id), out := ⟨some ⟨.ok, BitVec.ofNat 32 id.val⟩, false, none⟩ } d
          { s.half d with id := some id, cst := .claimed }))

/-- R131: which free id is taken is not determined: each free id is the answer for some answer of the oracle. -/
def Obligations.ClaimMayDrawAnyFreeId : Prop :=
  ∀ (s : State) (d : Dir) (id : ResId), s.fatal = false → (s.half d).cst = .free → id ∈ s.poolFree →
    ∃ (k : Nat) (t : State), exec (.claim d) { s with oracle := { s.oracle with draw := k } } = .next t ∧
      (t.half d).id = some id ∧ t.out = ⟨some ⟨.ok, BitVec.ofNat 32 id.val⟩, false, none⟩

/-- R132, R193, R194, R195, R197: CONFIG in each case, in the order of its checks. -/
def Obligations.ConfigBindsChannel : Prop :=
  ∀ (s : State) (d : Dir) (r : DevDir) (sl : Slot) (k : Index),
    (s.fatal = true → exec (.config d r sl k) s = .next { s with out := ⟨some ⟨.errFatal, 0⟩, false, none⟩ }) ∧
    (s.fatal = false → (s.half d).cst ≠ .claimed →
      exec (.config d r sl k) s = .next { s with out := ⟨some ⟨.errState, 0⟩, false, none⟩ }) ∧
    (s.fatal = false → (s.half d).cst = .claimed →
      (r ≠ (if d = .inp then .rd else .wr) ∨ k.toNat ≠ s.params.n ∨ sl ≠ dmaSlot d (s.half d)) →
      exec (.config d r sl k) s = .next { s with out := ⟨some ⟨.errArg, 0⟩, false, none⟩ }) ∧
    (s.fatal = false → (s.half d).cst = .claimed → r = (if d = .inp then .rd else .wr) → k.toNat = s.params.n →
      sl = dmaSlot d (s.half d) →
      exec (.config d r sl k) s = .next (State.setHalf { s with out := ⟨some ⟨.ok, 0⟩, false, none⟩ } d
        { s.half d with
          dirn := r, addr := BitVec.ofNat 17 (if sl = .a then 0 else s.params.n), len := k, xidx := 0, ie := true,
          cst := .idle }))

/-- R133, R193, R194: START in each case; ADDR and RSEL are not written. -/
def Obligations.StartArmsChannel : Prop :=
  ∀ (s : State) (d : Dir),
    (s.fatal = true → exec (.start d) s = .next { s with out := ⟨some ⟨.errFatal, 0⟩, false, none⟩ }) ∧
    (s.fatal = false → (s.half d).cst ≠ .idle →
      exec (.start d) s = .next { s with out := ⟨some ⟨.errState, 0⟩, false, none⟩ }) ∧
    (s.fatal = false → (s.half d).cst = .idle →
      exec (.start d) s = .next (State.setHalf { s with out := ⟨some ⟨.ok, 0⟩, false, none⟩ } d
        { s.half d with
          xidx := 0, cst := .armed, pend := (if s.params.rearmSetsPending then true else (s.half d).pend) }))

/-- R134, direction IN: an enabled BEAT pops the received word, stores it at ADDR + XIDX and counts it; the word that
completes the block makes the channel DONE and raises the interrupt; every other byte, register and half is as before.
The two range premises hold in every reachable state by R45. -/
def Obligations.BeatInStoresReceivedWord : Prop :=
  ∀ (s : State) (x : Word),
    s.inHalf.cst = .armed → s.oracle.rxValid = true → s.inHalf.mem.wf = true →
    beatAddr s.inHalf < 2 * s.params.n → s.inHalf.xidx.toNat < 65535 →
    ∃ t, exec (.beat .inp x) s = .next t ∧
      t.loadWord .inp (beatAddr s.inHalf) = x ∧
      (∀ k, k / 4 ≠ beatAddr s.inHalf → t.inHalf.mem.byte k = s.inHalf.mem.byte k) ∧
      t.inHalf.mem.wf = true ∧
      t.inHalf.xidx.toNat = s.inHalf.xidx.toNat + 1 ∧
      t = { s with
        inHalf := { s.inHalf with
          mem := t.inHalf.mem
          xidx := t.inHalf.xidx
          cst := (if t.inHalf.xidx = s.inHalf.len then .done else .armed)
          ip := (if t.inHalf.xidx = s.inHalf.len then true else s.inHalf.ip) }
        out := ⟨none, true, none⟩ }

/-- R134, direction OUT: an enabled BEAT pushes the word at ADDR + XIDX, appends it to TXLOG and counts it; no byte of
memory changes. The two range premises hold in every reachable state by R45. -/
def Obligations.BeatOutPushesSlotWord : Prop :=
  ∀ (s : State) (x : Word),
    s.outHalf.cst = .armed → s.oracle.txReady = true →
    beatAddr s.outHalf < 2 * s.params.n → s.outHalf.xidx.toNat < 65535 →
    ∃ t, exec (.beat .out x) s = .next t ∧
      t.outHalf.xidx.toNat = s.outHalf.xidx.toNat + 1 ∧
      t = { s with
        outHalf := { s.outHalf with
          xidx := t.outHalf.xidx
          cst := (if t.outHalf.xidx = s.outHalf.len then .done else .armed)
          ip := (if t.outHalf.xidx = s.outHalf.len then true else s.outHalf.ip) }
        txlog := s.txlog ++ [s.loadWord .out (beatAddr s.outHalf)]
        out := ⟨none, false, some (s.loadWord .out (beatAddr s.outHalf))⟩ }

/-- The model's own stops (log 11, log 12; the spec has no behaviour there): an enabled BEAT that would form an address of
2N or more, one whose XIDX has no successor in 16 bits, and a step of the hardware whose word names no event. -/
def Obligations.ModelStops : Prop :=
  (∀ (s : State) (d : Dir) (x : Word), (s.half d).cst = .armed → handshake s.oracle d = true →
    (2 * s.params.n ≤ beatAddr (s.half d) → exec (.beat d x) s = .fault (.noSuchAddress d (beatAddr (s.half d)))) ∧
    (beatAddr (s.half d) < 2 * s.params.n → 65535 ≤ (s.half d).xidx.toNat →
      exec (.beat d x) s = .fault (.indexOverflow d))) ∧
  (∀ (s : State) (t : Stimulus) (r : List Stimulus), s.pending = t :: r → t.source = .hardware →
    (decode t.label t.data = none ∨ t.label.getLsbD 31 = false) → step s = .refused (.notAnEvent t.label))

/-- R134, R138: a BEAT that is not enabled (the channel is not ARMED or its handshake is deasserted) does not happen:
nothing changes. That it is a next state of the model, with quiet output signals, is the model's choice (log 8, DEDUCED). -/
def Obligations.DisabledBeatLeavesNoTrace : Prop :=
  ∀ (s : State) (d : Dir) (x : Word),
    ((s.half d).cst ≠ .armed ∨ (if d = .inp then s.oracle.rxValid else s.oracle.txReady) = false) →
    exec (.beat d x) s = .next { s with out := ⟨none, false, none⟩ }

/-- R138: while the handshake of an ARMED channel is deasserted, nothing but RESET moves it: it stays ARMED with the
same XIDX, no completion is raised, and ADDR and the roles stay. -/
def Obligations.StalledChannelStaysArmed : Prop :=
  ∀ (i : Instr) (s t : State) (d : Dir),
    i ≠ .reset → (s.half d).cst = .armed → (s.half d).ip = false → handshake s.oracle d = false →
    exec i s = .next t →
    (t.half d).cst = .armed ∧ (t.half d).xidx = (s.half d).xidx ∧ (t.half d).ip = false ∧
      (t.half d).addr = (s.half d).addr ∧ (t.half d).rsel = (s.half d).rsel

/-- R135, R100, R130, R202 to R204: the completion handler, taken when `irq[d]` = 1, as one step: acknowledge, swap when
due, address of the channel's slot in the new roles, XIDX 0, ARMED; PEND after it is REARM_SETS_PENDING. Not enabled, it
does not happen; that this is a next state with quiet output signals is the model's choice (log 8, DEDUCED). -/
def Obligations.OncompSwapsAndRearms : Prop :=
  ∀ (s : State) (d : Dir),
    ((s.half d).ip = true → (s.half d).ie = true →
      ∀ rsel' : Slot,
        rsel' = (if (s.half d).pend = true then (if (s.half d).rsel = .a then .b else .a) else (s.half d).rsel) →
        exec (.oncomp d) s = .next (State.setHalf { s with out := ⟨none, false, none⟩ } d
          { s.half d with
            rsel := rsel'
            pend := s.params.rearmSetsPending
            addr := BitVec.ofNat 17
              (match d with
                | .inp => if rsel' = .a then s.params.n else 0
                | .out => if rsel' = .a then 0 else s.params.n)
            xidx := 0
            cst := .armed
            ip := false })) ∧
    ((s.half d).ip = false ∨ (s.half d).ie = false →
      exec (.oncomp d) s = .next { s with out := ⟨none, false, none⟩ })

/-- R47, R135: when REARM_SETS_PENDING is true, every completion handler of a reachable state exchanges the roles and
moves the channel to the base of the other slot; never zero times and never more than once. -/
def Obligations.EveryCompletionSwapsOnce : Prop :=
  ∀ (s : State) (d : Dir), s.Inv → s.params.rearmSetsPending = true → (s.half d).cst = .done →
    ∃ t, exec (.oncomp d) s = .next t ∧
      (t.half d).reading = (s.half d).writing ∧ (t.half d).writing = (s.half d).reading ∧
      (t.half d).addr.toNat + (s.half d).addr.toNat = s.params.n ∧ (t.half d).addr ≠ (s.half d).addr ∧
      (t.half d).xidx = 0 ∧ (t.half d).cst = .armed ∧ (t.half d).irq = false ∧ (t.half d).pend = true

/-- R139: when REARM_SETS_PENDING is false, once PEND is 0 no operation but RESET sets it, and every later completion
handler of a reachable state leaves the roles and ADDR as they are. -/
def Obligations.LiteralModeNeverSwapsAgain : Prop :=
  ∀ (s t : State) (d : Dir) (i : Instr), s.Inv → s.params.rearmSetsPending = false → (s.half d).pend = false →
    i ≠ .reset → exec i s = .next t →
    (t.half d).pend = false ∧ (t.half d).rsel = (s.half d).rsel ∧
      (i = .oncomp d → (t.half d).addr = (s.half d).addr)

/-- R201: when both interrupts are pending the two handlers lead to the same state in either order. -/
def Obligations.HandlersCommute : Prop :=
  ∀ s : State, s.inHalf.irq = true → s.outHalf.irq = true →
    ∃ t u v, exec (.oncomp .inp) s = .next t ∧ exec (.oncomp .out) t = .next v ∧
      exec (.oncomp .out) s = .next u ∧ exec (.oncomp .inp) u = .next v

/-- R136: with IN armed at the start of a block and `rx_valid` asserted, N BEATs with the words xs and the handler lead
to a state in which LDR IN returns exactly those words in order, the slot now being filled still holds the words that
were readable before, and direction OUT is untouched. -/
def Obligations.InputBlockBecomesReadable : Prop :=
  ∀ (s : State) (xs : List Word),
    s.Inv → s.params.rearmSetsPending = true → s.inHalf.cst = .armed → s.inHalf.xidx = 0 →
    s.oracle.rxValid = true → xs.length = s.params.n →
    ∃ t, execAll (rxBlock xs ++ [.oncomp .inp]) s = .next t ∧
      t.Inv ∧ t.inHalf.cst = .armed ∧ t.outHalf = s.outHalf ∧
      ∀ i : Index, (h : i.toNat < xs.length) →
        exec (.ldr .inp i) t = .next { t with out := ⟨some ⟨.ok, xs[i.toNat]⟩, false, none⟩ } ∧
        t.loadWord .inp (wordAddr t.params.n t.inHalf.writing i) =
          s.loadWord .inp (wordAddr s.params.n s.inHalf.reading i)

/-- R137: with OUT armed at the start of a block and `tx_ready` asserted, N BEATs append to TXLOG exactly the N words of
the reading slot in index order, complete the block, and leave memory and direction IN untouched. -/
def Obligations.OutputBlockIsReadingSlot : Prop :=
  ∀ s : State,
    s.Inv → s.outHalf.cst = .armed → s.outHalf.xidx = 0 → s.oracle.txReady = true →
    ∃ t, execAll (txBlock s.params.n) s = .next t ∧
      t.txlog = s.txlog ++
        (List.range s.params.n).map (fun i => s.loadWord .out (slotBase s.params.n s.outHalf.reading + i)) ∧
      t.outHalf.cst = .done ∧ t.outHalf.irq = true ∧ t.outHalf.mem = s.outHalf.mem ∧ t.inHalf = s.inHalf

/-- R233, R94: from a reachable state with the channel FREE, FATAL 0 and a free id, claim, configure and start each
answer OK and leave the channel ARMED on its slot with the interrupt enabled; the other direction is untouched. -/
def Obligations.StartupSequenceArmsChannel : Prop :=
  ∀ (s : State) (d : Dir),
    s.Inv → (s.half d).cst = .free → s.fatal = false → s.poolFree ≠ [] →
    ∃ t u v, exec (.claim d) s = .next t ∧
      exec (.config d (devDirOf d) (dmaSlot d (s.half d)) (BitVec.ofNat 16 s.params.n)) t = .next u ∧
      exec (.start d) u = .next v ∧
      execAll (initSeq s.params d (s.half d)) s = .next v ∧
      (∃ w, t.out.resp = some ⟨.ok, w⟩) ∧ u.out.resp = some ⟨.ok, 0⟩ ∧ v.out.resp = some ⟨.ok, 0⟩ ∧
      (v.half d).cst = .armed ∧ (v.half d).xidx = 0 ∧ (v.half d).ie = true ∧ (v.half d).ip = false ∧
      (v.half d).len.toNat = s.params.n ∧ (v.half d).addr.toNat = slotBase s.params.n (dmaSlot d (s.half d)) ∧
      v.half (otherDir d) = s.half (otherDir d)

/- Reset. -/

/-- R40, R176: RESET takes every piece of state to its reset value from any state; the two slot memories are left open;
the parameters and the environment's own data are kept (log 17, the model's choice). -/
def Obligations.ResetRestoresResetValues : Prop :=
  ∀ s : State, ∃ mi mo : Memory,
    mi.wf = true ∧ mo.wf = true ∧
    exec .reset s = .next
      { params := s.params
        inHalf := { rsel := .a, pend := true, mem := mi, cst := .free, id := none, dirn := .rd, addr := 0, len := 0,
                    xidx := 0, ip := false, ie := false }
        outHalf := { rsel := .a, pend := true, mem := mo, cst := .free, id := none, dirn := .rd, addr := 0, len := 0,
                     xidx := 0, ip := false, ie := false }
        fatal := false
        poolFree := s.params.pool0
        txlog := []
        oracle := s.oracle
        pending := s.pending
        drawn := s.drawn
        out := ⟨none, false, none⟩ }

/-- R40: the slot contents after RESET are unspecified: any slot memory of 2N words is what a RESET leaves for some answer
of the oracle. That every RESET takes the parameter SLOT0 (R6) from the oracle is the model's choice (log 4, DEDUCED). -/
def Obligations.SlotContentsAfterResetAreFree : Prop :=
  ∀ (s : State) (mi mo : Memory),
    mi.wf = true → mo.wf = true → (∀ c ∈ mi.cells, c.1 < 8 * s.params.n) → (∀ c ∈ mo.cells, c.1 < 8 * s.params.n) →
    ∃ (o : Oracle) (t : State), exec .reset { s with oracle := o } = .next t ∧
      t.inHalf.mem = mi ∧ t.outHalf.mem = mo

/-- R40, R230: the registers of the state after reset; nothing is said of the slot contents, POOL0 and BYTE_ORDER, which
are the model's own choice there (log 2, 3, 5); no BEAT and no ONCOMP is enabled. -/
def Obligations.ResetStateRegisters : Prop :=
  (∀ d, (State.reset.half d).rsel = .a ∧ (State.reset.half d).pend = true ∧ (State.reset.half d).cst = .free ∧
    (State.reset.half d).id = none ∧ (State.reset.half d).dirn = .rd ∧ (State.reset.half d).addr = 0 ∧
    (State.reset.half d).len = 0 ∧ (State.reset.half d).xidx = 0 ∧ (State.reset.half d).ip = false ∧
    (State.reset.half d).ie = false) ∧
  State.reset.fatal = false ∧ State.reset.poolFree = State.reset.params.pool0 ∧ State.reset.txlog = [] ∧
  (∀ d, State.reset.oncompEnabled d = false ∧ ∀ o, State.beatEnabled { State.reset with oracle := o } d = false)

/- The whole machine. -/

/-- R190: every host command ends with a response, never faults, and pulses nothing at the queues; internal events have no
response. -/
def Obligations.HostCommandsAlwaysAnswer : Prop :=
  ∀ (i : Instr) (s : State),
    (i.isEvent = false → ∃ t r, exec i s = .next t ∧ t.out = ⟨some r, false, none⟩) ∧
    (i.isEvent = true → ∀ t, exec i s = .next t → t.out.resp = none)

/-- R191, R190: a command that answers an error returns 0 and changes nothing, but that ERR_NORES sets FATAL. -/
def Obligations.ErrorsChangeNothing : Prop :=
  ∀ (i : Instr) (s t : State) (r : Response), exec i s = .next t → t.out.resp = some r → r.code ≠ .ok →
    r.rdata = 0 ∧
    (r.code ≠ .errNores → t = { s with out := t.out }) ∧
    (r.code = .errNores → t = { s with fatal := true, out := t.out })

/-- R20: an operation of one direction neither writes nor reads the half of the other: with any other half in its place
the operation does the same and leaves that half alone. -/
def Obligations.DirectionsAreIndependent : Prop :=
  ∀ (i : Instr) (s t : State) (d : Dir) (h : Half), instrDir i = some d → exec i s = .next t →
    t.half (otherDir d) = s.half (otherDir d) ∧
    exec i (s.setHalf (otherDir d) h) = .next (t.setHalf (otherDir d) h)

/-- R140: every change of a channel's state is one of the transitions of the table, under its condition. ONCOMP leaves
DONE by R42, so in the states that meet the invariants; in any other it still needs `irq[d]` = 1. -/
def Obligations.ChannelStateTransitions : Prop :=
  ∀ (i : Instr) (s t : State) (d : Dir), exec i s = .next t →
    (t.half d).cst = (s.half d).cst ∨
    (i = .claim d ∧ (s.half d).cst = .free ∧ (t.half d).cst = .claimed ∧ s.fatal = false ∧ s.poolFree ≠ []) ∨
    ((∃ r sl k, i = .config d r sl k ∧ configArgsOk s.params.n d (s.half d) r sl k = true) ∧
      (s.half d).cst = .claimed ∧ (t.half d).cst = .idle ∧ s.fatal = false) ∨
    (i = .start d ∧ (s.half d).cst = .idle ∧ (t.half d).cst = .armed ∧ s.fatal = false) ∨
    ((∃ x, i = .beat d x) ∧ (s.half d).cst = .armed ∧ (t.half d).cst = .done ∧ handshake s.oracle d = true ∧
      (s.half d).xidx.toNat + 1 = (s.half d).len.toNat) ∨
    (i = .oncomp d ∧ (t.half d).cst = .armed ∧ (s.half d).irq = true ∧ (s.Inv → (s.half d).cst = .done)) ∨
    (i = .reset ∧ (t.half d).cst = .free)

/-- R48: which operations write which state: everything an operation is not listed for is as before. The last line is
about the model's own fields and is its choice: the parameters (log 1), the oracle's answers (log 8), the pending steps
and their count (log 6). -/
def Obligations.OnlyListedOperationsWrite : Prop :=
  ∀ (i : Instr) (s t : State) (d : Dir), exec i s = .next t → i ≠ .reset →
    ((t.half d).rsel = (s.half d).rsel ∨ i = .swap d ∨ i = .oncomp d) ∧
    ((t.half d).pend = (s.half d).pend ∨ i = .start d ∨ i = .swap d ∨ i = .oncomp d) ∧
    ((t.half d).mem = (s.half d).mem ∨ (∃ k x, i = .stw d k x) ∨ (∃ sl k x, i = .sts d sl k x) ∨
      (d = .inp ∧ ∃ x, i = .beat d x)) ∧
    ((t.half d).cst = (s.half d).cst ∨ i = .claim d ∨ (∃ r sl k, i = .config d r sl k) ∨ i = .start d ∨
      (∃ x, i = .beat d x) ∨ i = .oncomp d) ∧
    ((t.half d).id = (s.half d).id ∨ i = .claim d) ∧
    ((t.half d).dirn = (s.half d).dirn ∧ (t.half d).len = (s.half d).len ∧ (t.half d).ie = (s.half d).ie ∨
      ∃ r sl k, i = .config d r sl k) ∧
    ((t.half d).addr = (s.half d).addr ∨ (∃ r sl k, i = .config d r sl k) ∨ i = .oncomp d) ∧
    ((t.half d).xidx = (s.half d).xidx ∨ (∃ r sl k, i = .config d r sl k) ∨ i = .start d ∨ (∃ x, i = .beat d x) ∨
      i = .oncomp d) ∧
    ((t.half d).ip = (s.half d).ip ∨ (∃ x, i = .beat d x) ∨ i = .oncomp d) ∧
    (t.fatal = s.fatal ∧ t.poolFree = s.poolFree ∨ ∃ e, i = .claim e) ∧
    (t.txlog = s.txlog ∨ ∃ x, i = .beat .out x) ∧
    t.params = s.params ∧ t.oracle = s.oracle ∧ t.pending = s.pending ∧ t.drawn = s.drawn

/-- R22, R240: once a channel is configured the roles of its buffer change at ONCOMP and at RESET only, so never while a
block is being moved. -/
def Obligations.RolesChangeOnlyAtCompletion : Prop :=
  ∀ (i : Instr) (s t : State) (d : Dir), exec i s = .next t → configured (s.half d).cst = true →
    (t.half d).rsel ≠ (s.half d).rsel → (i = .oncomp d ∧ (s.half d).irq = true) ∨ i = .reset

/-- R34, R196: FATAL is set only by a CLAIM of a FREE channel that finds the pool empty, and cleared only by RESET. -/
def Obligations.FatalIsSticky : Prop :=
  ∀ (i : Instr) (s t : State), exec i s = .next t →
    (s.fatal = true → t.fatal = true ∨ i = .reset) ∧
    (s.fatal = false → t.fatal = true → ∃ d, i = .claim d ∧ (s.half d).cst = .free ∧ s.poolFree = [])

/-- R193: FATAL stops startup only: every other operation but the read of the bit itself does the same whatever its
value. -/
def Obligations.FatalStopsOnlyStartup : Prop :=
  ∀ (i : Instr) (s t : State) (b : Bool),
    (∀ d, i ≠ .claim d ∧ i ≠ .start d ∧ i ≠ .rdstat d ∧ ∀ r sl k, i ≠ .config d r sl k) → i ≠ .reset →
    exec i s = .next t → exec i { s with fatal := b } = .next { t with fatal := b }

/-- R39, R212: TXLOG only grows, by at most one word a step, until RESET empties it. -/
def Obligations.TxlogOnlyGrows : Prop :=
  ∀ (i : Instr) (s t : State), exec i s = .next t → i ≠ .reset →
    t.txlog = s.txlog ∨ ∃ w, t.txlog = s.txlog ++ [w] ∧ t.out.txPush = some w ∧ ∃ x, i = .beat .out x

/-- R64: byte order cannot be observed: from two states that differ at most in BYTE_ORDER and in where the bytes of their
words lie, every operation but RESET (whose slot contents are free) leads to two such states with the same outputs. -/
def Obligations.ByteOrderIsUnobservable : Prop :=
  ∀ (i : Instr) (s s' t : State), SameWords s s' → i ≠ .reset → exec i s = .next t →
    ∃ t', exec i s' = .next t' ∧ SameWords t t'

/- Invariants. -/

/-- R29, R41 to R47 hold of the state after reset. -/
def Obligations.ResetMeetsInvariants : Prop := State.reset.Inv

/-- R29, R41 to R47 are kept by every step from every state that meets them. -/
def Obligations.StepKeepsInvariants : Prop :=
  ∀ s t : State, s.Inv → step s = .next t → t.Inv

/-- R63, R45: from a state that meets the invariants no step faults: no address of 2N or more is formed and XIDX never
leaves its range. -/
def Obligations.StepNeverFaults : Prop :=
  ∀ (s : State) (f : Fault), s.Inv → step s ≠ .fault f

/-- R44: in a state that meets the invariants a BEAT moves a word of the channel's own slot: the bytes of the slot in the
other role are as before. -/
def Obligations.BeatStaysInChannelSlot : Prop :=
  ∀ (s t : State) (d : Dir) (x : Word) (i : Index), s.Inv → exec (.beat d x) s = .next t → i.toNat < s.params.n →
    t.loadWord d (wordAddr s.params.n (otherSlot (dmaSlot d (s.half d))) i) =
      s.loadWord d (wordAddr s.params.n (otherSlot (dmaSlot d (s.half d))) i)

/- Fair runs. -/

/-- R200: in a weakly fair run a completion interrupt that is raised is eventually handled, unless RESET drops it. -/
def Obligations.InterruptIsEventuallyHandled : Prop :=
  ∀ (σ : Nat → State) (ops : Nat → Instr) (answers : Nat → Oracle) (d : Dir) (n : Nat),
    IsRun σ ops answers → WeaklyFair σ ops answers → ((σ n).half d).irq = true →
    ∃ m, n ≤ m ∧ (ops m = .oncomp d ∨ ops m = .reset) ∧ ((σ m).half d).irq = true

/-- R200, R138, R251: in a weakly fair run whose handshake stays asserted, a block that is being moved is eventually
complete, unless RESET abandons it. -/
def Obligations.BlockIsEventuallyComplete : Prop :=
  ∀ (σ : Nat → State) (ops : Nat → Instr) (answers : Nat → Oracle) (d : Dir) (n : Nat),
    IsRun σ ops answers → WeaklyFair σ ops answers → (σ n).Inv → ((σ n).half d).cst = .armed →
    (∀ m, n ≤ m → handshake (answers m) d = true) →
    ∃ m, n ≤ m ∧ (((σ m).half d).cst = .done ∨ ops m = .reset)
end

