-- ==== Sys2Proof/Laws/Decode.lean ====
section
/-! SUPPORT. The fields of a label word and the word of given fields are the same data. -/

namespace Sys2Proof

@[simp] theorem Dir.ofBit_bit (d : Dir) : Dir.ofBit d.bit = d := by cases d <;> rfl
@[simp] theorem Dir.bit_ofBit (b : Bool) : (Dir.ofBit b).bit = b := by cases b <;> rfl
@[simp] theorem Slot.ofBit_bit (sl : Slot) : Slot.ofBit sl.bit = sl := by cases sl <;> rfl
@[simp] theorem Slot.bit_ofBit (b : Bool) : (Slot.ofBit b).bit = b := by cases b <;> rfl
@[simp] theorem DevDir.ofBit_bit (r : DevDir) : DevDir.ofBit r.bit = r := by cases r <;> rfl
@[simp] theorem DevDir.bit_ofBit (b : Bool) : (DevDir.ofBit b).bit = b := by cases b <;> rfl

/-- The label word of given fields, bit by bit: which field a bit belongs to (R81). -/
theorem Fields.getLsbD_toWord (f : Fields) (j : Nat) :
    f.toWord.getLsbD j =
      if j < 16 then f.k.getLsbD j
      else if j < 24 then f.zero.getLsbD (j - 16)
      else if j = 24 then f.r
      else if j = 25 then f.s
      else if j = 26 then f.d
      else f.clsOp.getLsbD (j - 27) := by
  have bit {c : Bool} {q : Nat} : (BitVec.ofBool c).getLsbD q = (decide (q = 0) && c) := by
    cases c <;> cases q <;> simp [BitVec.ofBool]
  unfold Fields.toWord
  simp only [BitVec.getLsbD_append, bit]
  by_cases h1 : j < 16
  · simp [h1]
  by_cases h2 : j < 24
  · simp [h1, h2, show j - 16 < 8 by omega]
  by_cases h3 : j = 24
  · subst h3; simp
  by_cases h4 : j = 25
  · subst h4; simp
  by_cases h5 : j = 26
  · subst h5; simp
  have e : j - 16 - 8 - 1 - 1 - 1 = j - 27 := by omega
  simp [h1, h2, h3, h4, h5, show ¬ j - 16 < 8 by omega, show ¬ j - 24 < 1 by omega, show ¬ j - 25 < 1 by omega,
    show ¬ j - 26 < 1 by omega, Nat.sub_sub]

/-- No bit of a label word is dropped when it is read as fields. -/
@[simp] theorem Fields.ofWord_toWord (f : Fields) : Fields.ofWord f.toWord = f := by
  obtain ⟨c, d, s, r, z, k⟩ := f
  unfold Fields.ofWord
  congr 1
  · apply BitVec.eq_of_getLsbD_eq
    intro j hj
    simp [Fields.getLsbD_toWord, hj, show ¬ 27 + j < 16 by omega,
      show ¬ 27 + j < 24 by omega, show 27 + j ≠ 24 by omega, show 27 + j ≠ 25 by omega, show 27 + j ≠ 26 by omega]
  · exact (Fields.getLsbD_toWord _ _).trans rfl
  · exact (Fields.getLsbD_toWord _ _).trans rfl
  · exact (Fields.getLsbD_toWord _ _).trans rfl
  · apply BitVec.eq_of_getLsbD_eq
    intro j hj
    simp [Fields.getLsbD_toWord, hj, show 16 + j < 24 by omega]
  · apply BitVec.eq_of_getLsbD_eq
    intro j hj
    simp [Fields.getLsbD_toWord, hj]

/-- No bit of a label word is changed when its fields are put together again. -/
@[simp] theorem Fields.toWord_ofWord (l : Word) : (Fields.ofWord l).toWord = l := by
  apply BitVec.eq_of_getLsbD_eq
  intro j hj
  rw [Fields.getLsbD_toWord]
  unfold Fields.ofWord
  simp only [BitVec.getLsbD_extractLsb']
  by_cases h1 : j < 16
  · simp [h1]
  by_cases h2 : j < 24
  · simp [h1, h2, show j - 16 < 8 by omega, show 16 + (j - 16) = j by omega]
  by_cases h3 : j = 24
  · simp [h3]
  by_cases h4 : j = 25
  · simp [h4]
  by_cases h5 : j = 26
  · simp [h5]
  simp [h1, h2, h3, h4, h5, show j - 27 < 5 by omega, show 27 + (j - 27) = j by omega]

theorem Fields.formatZ_eq_some {f : Fields} {i j : Instr} :
    f.formatZ i = some j ↔ (f.d = false ∧ f.s = false ∧ f.r = false ∧ f.zero = 0 ∧ f.k = 0) ∧ i = j := by
  unfold Fields.formatZ; split <;> simp_all

theorem Fields.formatD_eq_some {f : Fields} {i : Dir → Instr} {j : Instr} :
    f.formatD i = some j ↔ (f.s = false ∧ f.r = false ∧ f.zero = 0 ∧ f.k = 0) ∧ i (Dir.ofBit f.d) = j := by
  unfold Fields.formatD; split <;> simp_all

theorem Fields.formatDK_eq_some {f : Fields} {i : Dir → Index → Instr} {j : Instr} :
    f.formatDK i = some j ↔ (f.s = false ∧ f.r = false ∧ f.zero = 0) ∧ i (Dir.ofBit f.d) f.k = j := by
  unfold Fields.formatDK; split <;> simp_all

theorem Fields.formatDSK_eq_some {f : Fields} {i : Dir → Slot → Index → Instr} {j : Instr} :
    f.formatDSK i = some j ↔ (f.r = false ∧ f.zero = 0) ∧ i (Dir.ofBit f.d) (Slot.ofBit f.s) f.k = j := by
  unfold Fields.formatDSK; split <;> simp_all

theorem Fields.formatC_eq_some {f : Fields} {i : Dir → DevDir → Slot → Index → Instr} {j : Instr} :
    f.formatC i = some j ↔ f.zero = 0 ∧ i (Dir.ofBit f.d) (DevDir.ofBit f.r) (Slot.ofBit f.s) f.k = j := by
  unfold Fields.formatC; split <;> simp_all

end Sys2Proof
end

