-- ==== Sys2Proof/Laws/Memory.lean ====
section
/-! SUPPORT. Slot memory: reads after writes, the canonical form, and the range of addresses. -/

namespace Sys2Proof.Machine

/-- The canonical form, cell by cell: no zero byte, and every later address is larger. -/
theorem cellsCanonical_cons (c : Host.Cell) (r : List Host.Cell) :
    cellsCanonical (c :: r) = true ↔ c.2 ≠ 0 ∧ (∀ e ∈ r, c.1 < e.1) ∧ cellsCanonical r = true := by
  induction r generalizing c with
  | nil => simp [cellsCanonical]
  | cons d r ih =>
    rw [cellsCanonical]
    simp only [Bool.and_eq_true, bne_iff_ne, decide_eq_true_eq, List.mem_cons, forall_eq_or_imp, ih d]
    constructor
    · rintro ⟨⟨h0, h1⟩, h2, h3, h4⟩
      exact ⟨h0, ⟨h1, fun e he => Nat.lt_trans h1 (h3 e he)⟩, h2, h3, h4⟩
    · rintro ⟨h0, ⟨h1, -⟩, h2, h3, h4⟩
      exact ⟨⟨h0, h1⟩, h2, h3, h4⟩

/-- A byte that is not listed reads as 0. -/
theorem cellsGet_of_lt {r : List Host.Cell} {k : Nat} (h : ∀ e ∈ r, k < e.1) : cellsGet r k = 0 := by
  induction r with
  | nil => rfl
  | cons c r ih =>
    simp only [List.mem_cons, forall_eq_or_imp] at h
    rw [cellsGet, if_neg (by omega), ih h.2]

theorem cellsGet_cellsPush (k : Nat) (v : BitVec 8) {r : List Host.Cell} (h : ∀ e ∈ r, k < e.1) :
    cellsGet (cellsPush k v r) k = v := by
  unfold cellsPush
  split
  · next hv => rw [cellsGet_of_lt h, hv]
  · simp [cellsGet]

theorem cellsGet_cellsPush_ne {k j : Nat} (v : BitVec 8) (r : List Host.Cell) (h : j ≠ k) :
    cellsGet (cellsPush k v r) j = cellsGet r j := by
  unfold cellsPush
  split
  · rfl
  · simp [cellsGet, Ne.symm h]

/-- Every byte but the stored one reads as before. -/
theorem cellsGet_cellsSet_ne {k j : Nat} (v : BitVec 8) (r : List Host.Cell) (h : j ≠ k) :
    cellsGet (cellsSet r k v) j = cellsGet r j := by
  induction r with
  | nil => exact cellsGet_cellsPush_ne v [] h
  | cons c r ih =>
    rw [cellsSet]
    split
    · exact cellsGet_cellsPush_ne v _ h
    · split
      · next hk => rw [cellsGet_cellsPush_ne v _ h, cellsGet, if_neg (by omega)]
      · rw [cellsGet, cellsGet, ih]

/-- The stored byte reads back. -/
theorem cellsGet_cellsSet {k : Nat} (v : BitVec 8) {r : List Host.Cell} (h : cellsCanonical r = true) :
    cellsGet (cellsSet r k v) k = v := by
  induction r with
  | nil => exact cellsGet_cellsPush k v (by simp)
  | cons c r ih =>
    rw [cellsCanonical_cons] at h
    rw [cellsSet]
    split
    · next hk =>
      refine cellsGet_cellsPush k v ?_
      simp only [List.mem_cons, forall_eq_or_imp]
      exact ⟨hk, fun e he => Nat.lt_trans hk (h.2.1 e he)⟩
    · split
      · next hk => exact cellsGet_cellsPush k v (hk ▸ h.2.1)
      · next hk => rw [cellsGet, if_neg hk, ih h.2.2]

/-- A listed address after a store was listed before or is the stored one. -/
theorem mem_cellsSet {r : List Host.Cell} {k : Nat} {v : BitVec 8} {e : Host.Cell} (h : e ∈ cellsSet r k v) :
    e ∈ r ∨ e.1 = k := by
  have push {q : List Host.Cell} (h : e ∈ cellsPush k v q) : e ∈ q ∨ e.1 = k := by
    unfold cellsPush at h
    split at h
    · exact .inl h
    · rcases List.mem_cons.mp h with rfl | h
      · exact .inr rfl
      · exact .inl h
  induction r with
  | nil => exact push h
  | cons c r ih =>
    rw [cellsSet] at h
    split at h
    · exact push h
    · split at h
      · rcases push h with h | h
        · exact .inl (List.mem_cons_of_mem _ h)
        · exact .inr h
      · rcases List.mem_cons.mp h with rfl | h
        · exact .inl List.mem_cons_self
        · rcases ih h with h | h
          · exact .inl (List.mem_cons_of_mem _ h)
          · exact .inr h

theorem cellsCanonical_cellsPush {k : Nat} (v : BitVec 8) {r : List Host.Cell} (h : ∀ e ∈ r, k < e.1)
    (hr : cellsCanonical r = true) : cellsCanonical (cellsPush k v r) = true := by
  unfold cellsPush
  split
  · exact hr
  · next hv => exact (cellsCanonical_cons _ _).mpr ⟨hv, h, hr⟩

/-- A store keeps the canonical form. -/
theorem cellsCanonical_cellsSet (k : Nat) (v : BitVec 8) {r : List Host.Cell} (h : cellsCanonical r = true) :
    cellsCanonical (cellsSet r k v) = true := by
  induction r with
  | nil => exact cellsCanonical_cellsPush v (by simp) rfl
  | cons c r ih =>
    have hc := (cellsCanonical_cons c r).mp h
    rw [cellsSet]
    split
    · next hk =>
      refine cellsCanonical_cellsPush v ?_ h
      simp only [List.mem_cons, forall_eq_or_imp]
      exact ⟨hk, fun e he => Nat.lt_trans hk (hc.2.1 e he)⟩
    · split
      · next hk => exact cellsCanonical_cellsPush v (hk ▸ hc.2.1) hc.2.2
      · refine (cellsCanonical_cons _ _).mpr ⟨hc.1, fun e he => ?_, ih hc.2.2⟩
        rcases mem_cellsSet he with he | he
        · exact hc.2.1 e he
        · omega

/- The slot memory. -/

@[simp] theorem byte_setByte_same {m : Memory} (k : Nat) (v : BitVec 8) (h : m.wf = true) :
    (m.setByte k v).byte k = v := cellsGet_cellsSet v h

theorem byte_setByte_ne (m : Memory) {k j : Nat} (v : BitVec 8) (h : j ≠ k) : (m.setByte k v).byte j = m.byte j :=
  cellsGet_cellsSet_ne v m.cells h

theorem setByte_wf {m : Memory} (k : Nat) (v : BitVec 8) (h : m.wf = true) : (m.setByte k v).wf = true :=
  cellsCanonical_cellsSet k v h

/-- Two canonical slot memories that read alike are equal data. -/
theorem cells_ext {r q : List Host.Cell} (hr : cellsCanonical r = true) (hq : cellsCanonical q = true)
    (h : ∀ k, cellsGet r k = cellsGet q k) : r = q := by
  induction r generalizing q with
  | nil =>
    cases q with
    | nil => rfl
    | cons c q =>
      have := h c.1
      simp only [cellsGet, if_true] at this
      exact absurd this.symm ((cellsCanonical_cons c q).mp hq).1
  | cons c r ih =>
    have hc := (cellsCanonical_cons c r).mp hr
    cases q with
    | nil =>
      have := h c.1
      simp only [cellsGet, if_true] at this
      exact absurd this hc.1
    | cons e q =>
      have he := (cellsCanonical_cons e q).mp hq
      have hk : c.1 = e.1 := by
        rcases Nat.lt_trichotomy c.1 e.1 with hl | hl | hl
        · have := h c.1
          rw [cellsGet, if_pos rfl, cellsGet, if_neg (by omega),
            cellsGet_of_lt (fun x hx => Nat.lt_trans hl (he.2.1 x hx))] at this
          exact absurd this hc.1
        · exact hl
        · have := h e.1
          rw [cellsGet, if_neg (by omega), cellsGet_of_lt (fun x hx => Nat.lt_trans hl (hc.2.1 x hx)), cellsGet,
            if_pos rfl] at this
          exact absurd this.symm he.1
      have hv : c.2 = e.2 := by
        have := h c.1
        rwa [cellsGet, if_pos rfl, cellsGet, if_pos hk.symm] at this
      have hce : c = e := Prod.ext hk hv
      subst hce
      congr 1
      refine ih hc.2.2 he.2.2 (fun k => ?_)
      by_cases hk' : c.1 = k
      · rw [cellsGet_of_lt (hk' ▸ hc.2.1), cellsGet_of_lt (hk' ▸ he.2.1)]
      · have := h k
        rwa [cellsGet, if_neg hk', cellsGet, if_neg hk'] at this

/- Words. -/

/-- The four bytes of a word lie at the four byte addresses of its place. -/
theorem byteAddr_div (o : ByteOrder) (a : Nat) {j : Nat} (h : j < 4) : byteAddr o a j / 4 = a := by
  cases o <;> simp only [byteAddr] <;> omega

theorem byteAddr_inj (o : ByteOrder) (a : Nat) {i j : Nat} (hi : i < 4) (hj : j < 4)
    (h : byteAddr o a i = byteAddr o a j) : i = j := by
  cases o <;> simp only [byteAddr] at h <;> omega

theorem setWord_wf (m : Memory) (o : ByteOrder) (a : Nat) (v : Word) (h : m.wf = true) : (m.setWord o a v).wf = true :=
  setByte_wf _ _ (setByte_wf _ _ (setByte_wf _ _ (setByte_wf _ _ h)))

/-- A store of a word leaves every byte outside its four byte addresses as it was. -/
theorem byte_setWord_ne (m : Memory) (o : ByteOrder) {a k : Nat} (v : Word) (h : k / 4 ≠ a) :
    (m.setWord o a v).byte k = m.byte k := by
  have hne (j : Nat) (hj : j < 4) : k ≠ byteAddr o a j := fun e => h (e ▸ byteAddr_div o a hj)
  unfold Memory.setWord
  rw [byte_setByte_ne _ _ (hne 3 (by decide)), byte_setByte_ne _ _ (hne 2 (by decide)),
    byte_setByte_ne _ _ (hne 1 (by decide)), byte_setByte_ne _ _ (hne 0 (by decide))]

/-- A stored word reads back. -/
theorem word_setWord_same {m : Memory} (o : ByteOrder) (a : Nat) (v : Word) (h : m.wf = true) :
    (m.setWord o a v).word o a = v := by
  have hne {i j : Nat} (hi : i < 4) (hj : j < 4) (hij : i ≠ j) : byteAddr o a i ≠ byteAddr o a j :=
    fun e => hij (byteAddr_inj o a hi hj e)
  have w0 := setByte_wf (byteAddr o a 0) (v.extractLsb' 0 8) h
  have w1 := setByte_wf (byteAddr o a 1) (v.extractLsb' 8 8) w0
  have w2 := setByte_wf (byteAddr o a 2) (v.extractLsb' 16 8) w1
  unfold Memory.word Memory.setWord
  rw [byte_setByte_same _ _ w2,
    byte_setByte_ne _ _ (hne (i := 2) (j := 3) (by decide) (by decide) (by decide)), byte_setByte_same _ _ w1,
    byte_setByte_ne _ _ (hne (i := 1) (j := 3) (by decide) (by decide) (by decide)),
    byte_setByte_ne _ _ (hne (i := 1) (j := 2) (by decide) (by decide) (by decide)), byte_setByte_same _ _ w0,
    byte_setByte_ne _ _ (hne (i := 0) (j := 3) (by decide) (by decide) (by decide)),
    byte_setByte_ne _ _ (hne (i := 0) (j := 2) (by decide) (by decide) (by decide)),
    byte_setByte_ne _ _ (hne (i := 0) (j := 1) (by decide) (by decide) (by decide)), byte_setByte_same _ _ h]
  apply BitVec.eq_of_toNat_eq
  simp only [BitVec.toNat_append, BitVec.extractLsb'_toNat, Nat.shiftRight_eq_div_pow]
  have := v.isLt
  rw [← Nat.shiftLeft_add_eq_or_of_lt (by omega), ← Nat.shiftLeft_add_eq_or_of_lt (by omega),
    ← Nat.shiftLeft_add_eq_or_of_lt (by omega)]
  simp only [Nat.shiftLeft_eq]
  omega

/-- A store of a word leaves every other word as it was. -/
theorem word_setWord_ne (m : Memory) (o : ByteOrder) {a b : Nat} (v : Word) (h : b ≠ a) :
    (m.setWord o a v).word o b = m.word o b := by
  have hb (j : Nat) (hj : j < 4) : byteAddr o b j / 4 ≠ a := (byteAddr_div o b hj).symm ▸ h
  unfold Memory.word
  rw [byte_setWord_ne m o v (hb 3 (by decide)), byte_setWord_ne m o v (hb 2 (by decide)),
    byte_setWord_ne m o v (hb 1 (by decide)), byte_setWord_ne m o v (hb 0 (by decide))]

theorem mem_setByte_cells {m : Memory} {k : Nat} {v : BitVec 8} {e : Host.Cell} (h : e ∈ (m.setByte k v).cells) :
    e ∈ m.cells ∨ e.1 = k := mem_cellsSet h

/-- A store of word `a` lists no address but those listed before and the four of word `a`. -/
theorem mem_setWord_cells {m : Memory} {o : ByteOrder} {a : Nat} {v : Word} {e : Host.Cell}
    (h : e ∈ (m.setWord o a v).cells) : e ∈ m.cells ∨ e.1 / 4 = a := by
  rcases mem_setByte_cells h with h | h
  · rcases mem_setByte_cells h with h | h
    · rcases mem_setByte_cells h with h | h
      · rcases mem_setByte_cells h with h | h
        · exact .inl h
        · exact .inr (h ▸ byteAddr_div o a (by decide))
      · exact .inr (h ▸ byteAddr_div o a (by decide))
    · exact .inr (h ▸ byteAddr_div o a (by decide))
  · exact .inr (h ▸ byteAddr_div o a (by decide))

/- Images. -/

theorem ofImage_wf (n : Nat) (r : List Host.Cell) : (Memory.ofImage n r).wf = true := by
  induction r with
  | nil => rfl
  | cons c r ih =>
    rw [Memory.ofImage]
    split
    · exact setByte_wf _ _ ih
    · exact ih

theorem ofImage_range (n : Nat) (r : List Host.Cell) : ∀ c ∈ (Memory.ofImage n r).cells, c.1 < 8 * n := by
  induction r with
  | nil => intro c h; exact absurd h List.not_mem_nil
  | cons c r ih =>
    rw [Memory.ofImage]
    split
    · next hc =>
      intro e he
      rcases mem_setByte_cells he with he | he
      · exact ih e he
      · omega
    · exact ih

end Sys2Proof.Machine
end

