-- ==== Sys2Proof/Laws/State.lean ====
section
/-! SUPPORT. One small lemma per field per update of the state, so that no proof unfolds an update. -/

namespace Sys2Proof.Machine

@[simp] theorem otherDir_ne (d : Dir) : otherDir d ≠ d := by cases d <;> decide
@[simp] theorem ne_otherDir (d : Dir) : d ≠ otherDir d := by cases d <;> decide
@[simp] theorem otherDir_otherDir (d : Dir) : otherDir (otherDir d) = d := by cases d <;> rfl
@[simp] theorem otherSlot_ne (sl : Slot) : otherSlot sl ≠ sl := by cases sl <;> decide
@[simp] theorem ne_otherSlot (sl : Slot) : sl ≠ otherSlot sl := by cases sl <;> decide
@[simp] theorem otherSlot_otherSlot (sl : Slot) : otherSlot (otherSlot sl) = sl := by cases sl <;> rfl
@[simp] theorem half_inp (s : State) : s.half .inp = s.inHalf := rfl
@[simp] theorem half_out (s : State) : s.half .out = s.outHalf := rfl

/- Updates of fields other than the halves. -/

/-- Whatever the other fields become, the halves are those of the state they came from. -/
@[simp] theorem half_mk (s : State) (p : Params) (f : Bool) (pool : List ResId) (l : List Word) (o : Oracle)
    (q : List Stimulus) (n : Nat) (u : Outputs) (d : Dir) :
    State.half { params := p, inHalf := s.inHalf, outHalf := s.outHalf, fatal := f, poolFree := pool, txlog := l,
                 oracle := o, pending := q, drawn := n, out := u } d = s.half d := by
  cases d <;> rfl

/- setHalf. -/

theorem half_setHalf (s : State) (d e : Dir) (h : Half) :
    (s.setHalf d h).half e = if e = d then h else s.half e := by
  cases d <;> cases e <;> rfl
@[simp] theorem half_setHalf_same (s : State) (d : Dir) (h : Half) : (s.setHalf d h).half d = h := by
  cases d <;> rfl
@[simp] theorem half_setHalf_other (s : State) (d : Dir) (h : Half) :
    (s.setHalf d h).half (otherDir d) = s.half (otherDir d) := by
  cases d <;> rfl
@[simp] theorem setHalf_half (s : State) (d : Dir) : s.setHalf d (s.half d) = s := by cases d <;> rfl
@[simp] theorem setHalf_setHalf (s : State) (d : Dir) (h k : Half) : (s.setHalf d h).setHalf d k = s.setHalf d k := by
  cases d <;> rfl
@[simp] theorem setHalf_params (s : State) (d : Dir) (h : Half) : (s.setHalf d h).params = s.params := by cases d <;> rfl
@[simp] theorem setHalf_fatal (s : State) (d : Dir) (h : Half) : (s.setHalf d h).fatal = s.fatal := by cases d <;> rfl
@[simp] theorem setHalf_poolFree (s : State) (d : Dir) (h : Half) : (s.setHalf d h).poolFree = s.poolFree := by cases d <;> rfl
@[simp] theorem setHalf_txlog (s : State) (d : Dir) (h : Half) : (s.setHalf d h).txlog = s.txlog := by cases d <;> rfl
@[simp] theorem setHalf_oracle (s : State) (d : Dir) (h : Half) : (s.setHalf d h).oracle = s.oracle := by cases d <;> rfl
@[simp] theorem setHalf_pending (s : State) (d : Dir) (h : Half) : (s.setHalf d h).pending = s.pending := by cases d <;> rfl
@[simp] theorem setHalf_drawn (s : State) (d : Dir) (h : Half) : (s.setHalf d h).drawn = s.drawn := by cases d <;> rfl
@[simp] theorem setHalf_out (s : State) (d : Dir) (h : Half) : (s.setHalf d h).out = s.out := by cases d <;> rfl

/- respond. -/

@[simp] theorem half_respond (s : State) (c : RespCode) (v : Word) (d : Dir) : (s.respond c v).half d = s.half d := by cases d <;> rfl
@[simp] theorem respond_params (s : State) (c : RespCode) (v : Word) : (s.respond c v).params = s.params := rfl
@[simp] theorem respond_inHalf (s : State) (c : RespCode) (v : Word) : (s.respond c v).inHalf = s.inHalf := rfl
@[simp] theorem respond_outHalf (s : State) (c : RespCode) (v : Word) : (s.respond c v).outHalf = s.outHalf := rfl
@[simp] theorem respond_fatal (s : State) (c : RespCode) (v : Word) : (s.respond c v).fatal = s.fatal := rfl
@[simp] theorem respond_poolFree (s : State) (c : RespCode) (v : Word) : (s.respond c v).poolFree = s.poolFree := rfl
@[simp] theorem respond_txlog (s : State) (c : RespCode) (v : Word) : (s.respond c v).txlog = s.txlog := rfl
@[simp] theorem respond_oracle (s : State) (c : RespCode) (v : Word) : (s.respond c v).oracle = s.oracle := rfl
@[simp] theorem respond_pending (s : State) (c : RespCode) (v : Word) : (s.respond c v).pending = s.pending := rfl
@[simp] theorem respond_drawn (s : State) (c : RespCode) (v : Word) : (s.respond c v).drawn = s.drawn := rfl
@[simp] theorem respond_out (s : State) (c : RespCode) (v : Word) :
    (s.respond c v).out = { resp := some { code := c, rdata := v }, rxPop := false, txPush := none } := rfl

/- raise. -/

@[simp] theorem half_raise (s : State) (c : RespCode) (d : Dir) : (s.raise c).half d = s.half d := by cases d <;> rfl
@[simp] theorem raise_params (s : State) (c : RespCode) : (s.raise c).params = s.params := rfl
@[simp] theorem raise_inHalf (s : State) (c : RespCode) : (s.raise c).inHalf = s.inHalf := rfl
@[simp] theorem raise_outHalf (s : State) (c : RespCode) : (s.raise c).outHalf = s.outHalf := rfl
@[simp] theorem raise_fatal (s : State) (c : RespCode) : (s.raise c).fatal = s.fatal := rfl
@[simp] theorem raise_poolFree (s : State) (c : RespCode) : (s.raise c).poolFree = s.poolFree := rfl
@[simp] theorem raise_txlog (s : State) (c : RespCode) : (s.raise c).txlog = s.txlog := rfl
@[simp] theorem raise_oracle (s : State) (c : RespCode) : (s.raise c).oracle = s.oracle := rfl
@[simp] theorem raise_pending (s : State) (c : RespCode) : (s.raise c).pending = s.pending := rfl
@[simp] theorem raise_drawn (s : State) (c : RespCode) : (s.raise c).drawn = s.drawn := rfl
@[simp] theorem raise_out (s : State) (c : RespCode) :
    (s.raise c).out = { resp := some { code := c, rdata := 0 }, rxPop := false, txPush := none } := rfl

/- quiet. -/

@[simp] theorem half_quiet (s : State) (d : Dir) : (s.quiet).half d = s.half d := by cases d <;> rfl
@[simp] theorem quiet_params (s : State) : (s.quiet).params = s.params := rfl
@[simp] theorem quiet_inHalf (s : State) : (s.quiet).inHalf = s.inHalf := rfl
@[simp] theorem quiet_outHalf (s : State) : (s.quiet).outHalf = s.outHalf := rfl
@[simp] theorem quiet_fatal (s : State) : (s.quiet).fatal = s.fatal := rfl
@[simp] theorem quiet_poolFree (s : State) : (s.quiet).poolFree = s.poolFree := rfl
@[simp] theorem quiet_txlog (s : State) : (s.quiet).txlog = s.txlog := rfl
@[simp] theorem quiet_oracle (s : State) : (s.quiet).oracle = s.oracle := rfl
@[simp] theorem quiet_pending (s : State) : (s.quiet).pending = s.pending := rfl
@[simp] theorem quiet_drawn (s : State) : (s.quiet).drawn = s.drawn := rfl
@[simp] theorem quiet_out (s : State) :
    (s.quiet).out = Outputs.quiet := rfl

/- pulseRxPop. -/

@[simp] theorem half_pulseRxPop (s : State) (d : Dir) : (s.pulseRxPop).half d = s.half d := by cases d <;> rfl
@[simp] theorem pulseRxPop_params (s : State) : (s.pulseRxPop).params = s.params := rfl
@[simp] theorem pulseRxPop_inHalf (s : State) : (s.pulseRxPop).inHalf = s.inHalf := rfl
@[simp] theorem pulseRxPop_outHalf (s : State) : (s.pulseRxPop).outHalf = s.outHalf := rfl
@[simp] theorem pulseRxPop_fatal (s : State) : (s.pulseRxPop).fatal = s.fatal := rfl
@[simp] theorem pulseRxPop_poolFree (s : State) : (s.pulseRxPop).poolFree = s.poolFree := rfl
@[simp] theorem pulseRxPop_txlog (s : State) : (s.pulseRxPop).txlog = s.txlog := rfl
@[simp] theorem pulseRxPop_oracle (s : State) : (s.pulseRxPop).oracle = s.oracle := rfl
@[simp] theorem pulseRxPop_pending (s : State) : (s.pulseRxPop).pending = s.pending := rfl
@[simp] theorem pulseRxPop_drawn (s : State) : (s.pulseRxPop).drawn = s.drawn := rfl
@[simp] theorem pulseRxPop_out (s : State) :
    (s.pulseRxPop).out = { resp := none, rxPop := true, txPush := none } := rfl

/- pushTx. -/

@[simp] theorem half_pushTx (s : State) (v : Word) (d : Dir) : (s.pushTx v).half d = s.half d := by cases d <;> rfl
@[simp] theorem pushTx_params (s : State) (v : Word) : (s.pushTx v).params = s.params := rfl
@[simp] theorem pushTx_inHalf (s : State) (v : Word) : (s.pushTx v).inHalf = s.inHalf := rfl
@[simp] theorem pushTx_outHalf (s : State) (v : Word) : (s.pushTx v).outHalf = s.outHalf := rfl
@[simp] theorem pushTx_fatal (s : State) (v : Word) : (s.pushTx v).fatal = s.fatal := rfl
@[simp] theorem pushTx_poolFree (s : State) (v : Word) : (s.pushTx v).poolFree = s.poolFree := rfl
@[simp] theorem pushTx_txlog (s : State) (v : Word) : (s.pushTx v).txlog = s.txlog ++ [v] := rfl
@[simp] theorem pushTx_oracle (s : State) (v : Word) : (s.pushTx v).oracle = s.oracle := rfl
@[simp] theorem pushTx_pending (s : State) (v : Word) : (s.pushTx v).pending = s.pending := rfl
@[simp] theorem pushTx_drawn (s : State) (v : Word) : (s.pushTx v).drawn = s.drawn := rfl
@[simp] theorem pushTx_out (s : State) (v : Word) :
    (s.pushTx v).out = { resp := none, rxPop := false, txPush := some v } := rfl

/- storeWord and countWord. -/

@[simp] theorem half_storeWord_same (s : State) (d : Dir) (a : Nat) (v : Word) :
    (s.storeWord d a v).half d = { s.half d with mem := (s.half d).mem.setWord s.params.byteOrder a v } := by
  cases d <;> rfl
@[simp] theorem half_storeWord_other (s : State) (d : Dir) (a : Nat) (v : Word) :
    (s.storeWord d a v).half (otherDir d) = s.half (otherDir d) := by
  cases d <;> rfl
@[simp] theorem half_countWord_same (s : State) (d : Dir) : (s.countWord d).half d = (s.half d).countWord := by
  cases d <;> rfl
@[simp] theorem half_countWord_other (s : State) (d : Dir) :
    (s.countWord d).half (otherDir d) = s.half (otherDir d) := by
  cases d <;> rfl
@[simp] theorem storeWord_params (s : State) (d : Dir) (a : Nat) (v : Word) : (s.storeWord d a v).params = s.params := by
  cases d <;> rfl
@[simp] theorem storeWord_fatal (s : State) (d : Dir) (a : Nat) (v : Word) : (s.storeWord d a v).fatal = s.fatal := by
  cases d <;> rfl
@[simp] theorem storeWord_poolFree (s : State) (d : Dir) (a : Nat) (v : Word) : (s.storeWord d a v).poolFree = s.poolFree := by
  cases d <;> rfl
@[simp] theorem storeWord_txlog (s : State) (d : Dir) (a : Nat) (v : Word) : (s.storeWord d a v).txlog = s.txlog := by
  cases d <;> rfl
@[simp] theorem storeWord_oracle (s : State) (d : Dir) (a : Nat) (v : Word) : (s.storeWord d a v).oracle = s.oracle := by
  cases d <;> rfl
@[simp] theorem storeWord_pending (s : State) (d : Dir) (a : Nat) (v : Word) : (s.storeWord d a v).pending = s.pending := by
  cases d <;> rfl
@[simp] theorem storeWord_drawn (s : State) (d : Dir) (a : Nat) (v : Word) : (s.storeWord d a v).drawn = s.drawn := by
  cases d <;> rfl
@[simp] theorem storeWord_out (s : State) (d : Dir) (a : Nat) (v : Word) : (s.storeWord d a v).out = s.out := by
  cases d <;> rfl
@[simp] theorem countWord_params (s : State) (d : Dir) : (s.countWord d).params = s.params := by cases d <;> rfl
@[simp] theorem countWord_fatal (s : State) (d : Dir) : (s.countWord d).fatal = s.fatal := by cases d <;> rfl
@[simp] theorem countWord_poolFree (s : State) (d : Dir) : (s.countWord d).poolFree = s.poolFree := by cases d <;> rfl
@[simp] theorem countWord_txlog (s : State) (d : Dir) : (s.countWord d).txlog = s.txlog := by cases d <;> rfl
@[simp] theorem countWord_oracle (s : State) (d : Dir) : (s.countWord d).oracle = s.oracle := by cases d <;> rfl
@[simp] theorem countWord_pending (s : State) (d : Dir) : (s.countWord d).pending = s.pending := by cases d <;> rfl
@[simp] theorem countWord_drawn (s : State) (d : Dir) : (s.countWord d).drawn = s.drawn := by cases d <;> rfl
@[simp] theorem countWord_out (s : State) (d : Dir) : (s.countWord d).out = s.out := by cases d <;> rfl

/- The halves: swap, arm, acknowledge, countWord. -/

@[simp] theorem swap_mem (h : Half) : h.swap.mem = h.mem := by unfold Half.swap; split <;> rfl
@[simp] theorem swap_cst (h : Half) : h.swap.cst = h.cst := by unfold Half.swap; split <;> rfl
@[simp] theorem swap_id (h : Half) : h.swap.id = h.id := by unfold Half.swap; split <;> rfl
@[simp] theorem swap_dirn (h : Half) : h.swap.dirn = h.dirn := by unfold Half.swap; split <;> rfl
@[simp] theorem swap_addr (h : Half) : h.swap.addr = h.addr := by unfold Half.swap; split <;> rfl
@[simp] theorem swap_len (h : Half) : h.swap.len = h.len := by unfold Half.swap; split <;> rfl
@[simp] theorem swap_xidx (h : Half) : h.swap.xidx = h.xidx := by unfold Half.swap; split <;> rfl
@[simp] theorem swap_ip (h : Half) : h.swap.ip = h.ip := by unfold Half.swap; split <;> rfl
@[simp] theorem swap_ie (h : Half) : h.swap.ie = h.ie := by unfold Half.swap; split <;> rfl
@[simp] theorem swap_rsel (h : Half) : h.swap.rsel = if h.pend then otherSlot h.rsel else h.rsel := by
  unfold Half.swap; split <;> rfl
@[simp] theorem swap_pend (h : Half) : h.swap.pend = false := by
  unfold Half.swap
  split
  · rfl
  · simp_all
@[simp] theorem arm_rsel (p : Params) (d : Dir) (h : Half) : (h.arm p d).rsel = h.rsel := rfl
@[simp] theorem arm_mem (p : Params) (d : Dir) (h : Half) : (h.arm p d).mem = h.mem := rfl
@[simp] theorem arm_id (p : Params) (d : Dir) (h : Half) : (h.arm p d).id = h.id := rfl
@[simp] theorem arm_dirn (p : Params) (d : Dir) (h : Half) : (h.arm p d).dirn = h.dirn := rfl
@[simp] theorem arm_len (p : Params) (d : Dir) (h : Half) : (h.arm p d).len = h.len := rfl
@[simp] theorem arm_ip (p : Params) (d : Dir) (h : Half) : (h.arm p d).ip = h.ip := rfl
@[simp] theorem arm_ie (p : Params) (d : Dir) (h : Half) : (h.arm p d).ie = h.ie := rfl
@[simp] theorem arm_pend (p : Params) (d : Dir) (h : Half) : (h.arm p d).pend = (p.rearmSetsPending || h.pend) := rfl
@[simp] theorem arm_cst (p : Params) (d : Dir) (h : Half) : (h.arm p d).cst = .armed := rfl
@[simp] theorem arm_xidx (p : Params) (d : Dir) (h : Half) : (h.arm p d).xidx = 0 := rfl
@[simp] theorem arm_addr (p : Params) (d : Dir) (h : Half) :
    (h.arm p d).addr = BitVec.ofNat 17 (slotBase p.n (dmaSlot d h)) := rfl
@[simp] theorem acknowledge_ip (h : Half) : h.acknowledge.ip = false := rfl
@[simp] theorem acknowledge_rsel (h : Half) : h.acknowledge.rsel = h.rsel := rfl
@[simp] theorem acknowledge_pend (h : Half) : h.acknowledge.pend = h.pend := rfl
@[simp] theorem acknowledge_mem (h : Half) : h.acknowledge.mem = h.mem := rfl
@[simp] theorem acknowledge_cst (h : Half) : h.acknowledge.cst = h.cst := rfl
@[simp] theorem acknowledge_id (h : Half) : h.acknowledge.id = h.id := rfl
@[simp] theorem acknowledge_dirn (h : Half) : h.acknowledge.dirn = h.dirn := rfl
@[simp] theorem acknowledge_addr (h : Half) : h.acknowledge.addr = h.addr := rfl
@[simp] theorem acknowledge_len (h : Half) : h.acknowledge.len = h.len := rfl
@[simp] theorem acknowledge_xidx (h : Half) : h.acknowledge.xidx = h.xidx := rfl
@[simp] theorem acknowledge_ie (h : Half) : h.acknowledge.ie = h.ie := rfl
@[simp] theorem countWord_half_rsel (h : Half) : h.countWord.rsel = h.rsel := by unfold Half.countWord; split <;> rfl
@[simp] theorem countWord_half_pend (h : Half) : h.countWord.pend = h.pend := by unfold Half.countWord; split <;> rfl
@[simp] theorem countWord_half_mem (h : Half) : h.countWord.mem = h.mem := by unfold Half.countWord; split <;> rfl
@[simp] theorem countWord_half_id (h : Half) : h.countWord.id = h.id := by unfold Half.countWord; split <;> rfl
@[simp] theorem countWord_half_dirn (h : Half) : h.countWord.dirn = h.dirn := by unfold Half.countWord; split <;> rfl
@[simp] theorem countWord_half_addr (h : Half) : h.countWord.addr = h.addr := by unfold Half.countWord; split <;> rfl
@[simp] theorem countWord_half_len (h : Half) : h.countWord.len = h.len := by unfold Half.countWord; split <;> rfl
@[simp] theorem countWord_half_ie (h : Half) : h.countWord.ie = h.ie := by unfold Half.countWord; split <;> rfl
@[simp] theorem countWord_half_xidx (h : Half) : h.countWord.xidx = h.xidx + 1 := by
  unfold Half.countWord; split <;> rfl
theorem countWord_half_cst (h : Half) : h.countWord.cst = if h.xidx + 1 = h.len then .done else h.cst := by
  unfold Half.countWord; split <;> rfl
theorem countWord_half_ip (h : Half) : h.countWord.ip = if h.xidx + 1 = h.len then true else h.ip := by
  unfold Half.countWord; split <;> rfl

/- accept. -/

@[simp] theorem half_accept (s : State) (d : Dir) : s.accept.half d = s.half d := by
  unfold State.accept
  split <;> cases d <;> rfl
@[simp] theorem accept_params (s : State) : s.accept.params = s.params := by unfold State.accept; split <;> rfl
@[simp] theorem accept_inHalf (s : State) : s.accept.inHalf = s.inHalf := by unfold State.accept; split <;> rfl
@[simp] theorem accept_outHalf (s : State) : s.accept.outHalf = s.outHalf := by unfold State.accept; split <;> rfl
@[simp] theorem accept_fatal (s : State) : s.accept.fatal = s.fatal := by unfold State.accept; split <;> rfl
@[simp] theorem accept_poolFree (s : State) : s.accept.poolFree = s.poolFree := by unfold State.accept; split <;> rfl
@[simp] theorem accept_txlog (s : State) : s.accept.txlog = s.txlog := by unfold State.accept; split <;> rfl
@[simp] theorem accept_out (s : State) : s.accept.out = s.out := by unfold State.accept; split <;> rfl
@[simp] theorem accept_oracle (s : State) : s.accept.oracle = s.nextStimulus.oracle := by
  unfold State.accept State.nextStimulus
  split <;> simp_all
theorem accept_pending (s : State) : s.accept.pending = s.pending.tail := by
  unfold State.accept
  split <;> simp_all

end Sys2Proof.Machine
end

