-- ==== Sys2Proof/Laws/Ops.lean ====
section
/-! SUPPORT. What each shared operation can do, said once. -/

namespace Sys2Proof.Machine

@[simp] theorem slotBase_a (n : Nat) : slotBase n .a = 0 := rfl
@[simp] theorem slotBase_b (n : Nat) : slotBase n .b = n := rfl
@[simp] theorem dmaSlot_inp (h : Half) : dmaSlot .inp h = otherSlot h.rsel := rfl
@[simp] theorem dmaSlot_out (h : Half) : dmaSlot .out h = h.rsel := rfl
@[simp] theorem reading_eq (h : Half) : h.reading = h.rsel := rfl
@[simp] theorem writing_eq (h : Half) : h.writing = otherSlot h.rsel := rfl

/-- The channel's slot depends on the roles only. -/
theorem dmaSlot_congr {d : Dir} {h k : Half} (e : h.rsel = k.rsel) : dmaSlot d h = dmaSlot d k := by
  cases d <;> simp [e]

/-- Exchanging the roles moves the channel to the other slot. -/
theorem dmaSlot_exchange {d : Dir} {h k : Half} (e : h.rsel = otherSlot k.rsel) :
    dmaSlot d h = otherSlot (dmaSlot d k) := by
  cases d <;> simp [e]

theorem slotBase_le (n : Nat) (sl : Slot) : slotBase n sl ≤ n := by cases sl <;> simp

/-- Under the range of N a slot's base fits the 17 bits of ADDR (R7, R63). -/
theorem slotBase_toNat {p : Params} (h : p.wf = true) (sl : Slot) :
    (BitVec.ofNat 17 (slotBase p.n sl)).toNat = slotBase p.n sl := by
  have := slotBase_le p.n sl
  simp only [Params.wf, Bool.and_eq_true, decide_eq_true_eq] at h
  rw [BitVec.toNat_ofNat]
  omega

@[simp] theorem indexOk_iff (n : Nat) (i : Index) : indexOk n i = true ↔ i.toNat < n := by simp [indexOk]

theorem configArgsOk_iff (n : Nat) (d : Dir) (h : Half) (r : DevDir) (sl : Slot) (k : Index) :
    configArgsOk n d h r sl k = true ↔ r = devDirOf d ∧ k.toNat = n ∧ sl = dmaSlot d h := by
  simp [configArgsOk, and_assoc]

/-- A draw is one of the free ids, and fails only when there is none (R131). -/
theorem drawId_eq_none (pool : List ResId) (k : Nat) : drawId pool k = none ↔ pool = [] := by
  unfold drawId
  rw [List.getElem?_eq_none_iff]
  constructor
  · intro h
    rcases Nat.eq_zero_or_pos pool.length with h0 | h0
    · exact List.length_eq_zero_iff.mp h0
    · exact absurd h (Nat.not_le.mpr (Nat.mod_lt k h0))
  · rintro rfl; simp

theorem drawId_mem {pool : List ResId} {k : Nat} {id : ResId} (h : drawId pool k = some id) : id ∈ pool :=
  List.mem_of_getElem? h

/-- Every free id is drawn by some answer of the oracle. -/
theorem drawId_onto {pool : List ResId} {id : ResId} (h : id ∈ pool) : ∃ k, drawId pool k = some id := by
  obtain ⟨k, hk, e⟩ := List.mem_iff_getElem.mp h
  exact ⟨k, by rw [drawId, Nat.mod_eq_of_lt hk, List.getElem?_eq_getElem hk, e]⟩

/-- A load answers ERR_ARG or OK with the word, and changes nothing but the response (R104, R106). -/
theorem loadSlot_cases (s : State) (d : Dir) (sl : Slot) (i : Index) :
    (s.params.n ≤ i.toNat ∧ s.loadSlot d sl i = s.raise .errArg) ∨
    (i.toNat < s.params.n ∧ s.loadSlot d sl i = s.respond .ok (s.loadWord d (wordAddr s.params.n sl i))) := by
  unfold State.loadSlot
  split
  · next h => exact .inr ⟨(indexOk_iff _ _).mp h, rfl⟩
  · next h => exact .inl ⟨Nat.not_lt.mp (fun c => h ((indexOk_iff _ _).mpr c)), rfl⟩

/-- A store answers ERR_ARG and changes nothing else, or OK and stores the one word (R105, R107). -/
theorem storeSlot_cases (s : State) (d : Dir) (sl : Slot) (i : Index) (x : Word) :
    (s.params.n ≤ i.toNat ∧ s.storeSlot d sl i x = s.raise .errArg) ∨
    (i.toNat < s.params.n ∧
      s.storeSlot d sl i x = (s.storeWord d (wordAddr s.params.n sl i) x).respond .ok 0) := by
  unfold State.storeSlot
  split
  · next h => exact .inr ⟨(indexOk_iff _ _).mp h, rfl⟩
  · next h => exact .inl ⟨Nat.not_lt.mp (fun c => h ((indexOk_iff _ _).mpr c)), rfl⟩

/-- A stored word reads back, and every other word of either direction reads as before. -/
theorem loadWord_storeWord_same (s : State) (d : Dir) (a : Nat) (v : Word) (h : (s.half d).mem.wf = true) :
    (s.storeWord d a v).loadWord d a = v := by
  unfold State.loadWord
  rw [half_storeWord_same, storeWord_params]
  exact word_setWord_same _ a v h

theorem loadWord_storeWord_ne (s : State) (d : Dir) {a b : Nat} (v : Word) (h : b ≠ a) :
    (s.storeWord d a v).loadWord d b = s.loadWord d b := by
  unfold State.loadWord
  rw [half_storeWord_same, storeWord_params]
  exact word_setWord_ne _ _ v h

/-- Under the guards a word move answers a next state, else it faults (R134). -/
theorem moveWord_cases (s : State) (d : Dir) (x : Word) :
    (2 * s.params.n ≤ beatAddr (s.half d) ∧ s.moveWord d x = .fault (.noSuchAddress d (beatAddr (s.half d)))) ∨
    (beatAddr (s.half d) < 2 * s.params.n ∧ 65535 ≤ (s.half d).xidx.toNat ∧
      s.moveWord d x = .fault (.indexOverflow d)) ∨
    (beatAddr (s.half d) < 2 * s.params.n ∧ (s.half d).xidx.toNat < 65535 ∧
      ((d = .inp ∧
          s.moveWord d x = .next ((s.storeWord .inp (beatAddr s.inHalf) x).countWord .inp).pulseRxPop) ∨
        (d = .out ∧
          s.moveWord d x = .next ((s.countWord .out).pushTx (s.loadWord .out (beatAddr s.outHalf)))))) := by
  unfold State.moveWord
  split
  · next h => exact .inl ⟨h, rfl⟩
  · next h =>
    split
    · next h' => exact .inr (.inl ⟨Nat.not_le.mp h, h', rfl⟩)
    · next h' =>
      refine .inr (.inr ⟨Nat.not_le.mp h, Nat.not_le.mp h', ?_⟩)
      cases d
      · exact .inl ⟨rfl, rfl⟩
      · exact .inr ⟨rfl, rfl⟩

/-- What one step is: a host command, an illegal word, an event, or a word that names no event. -/
theorem step_cases (s : State) :
    (∃ i, s.nextStimulus.source = .port ∧ decodeCommand s.nextStimulus.label s.nextStimulus.data = some i ∧
      step s = exec i s.accept) ∨
    (s.nextStimulus.source = .port ∧ decodeCommand s.nextStimulus.label s.nextStimulus.data = none ∧
      step s = .next (s.accept.raise .errIllegal)) ∨
    (∃ i, s.nextStimulus.source = .hardware ∧ decodeEvent s.nextStimulus.label s.nextStimulus.data = some i ∧
      step s = exec i s.accept) ∨
    (s.nextStimulus.source = .hardware ∧ decodeEvent s.nextStimulus.label s.nextStimulus.data = none ∧
      step s = .refused (.notAnEvent s.nextStimulus.label)) := by
  unfold step
  cases hs : s.nextStimulus.source with
  | port =>
    cases hd : decodeCommand s.nextStimulus.label s.nextStimulus.data with
    | some i => exact .inl ⟨i, rfl, rfl, rfl⟩
    | none => exact .inr (.inl ⟨rfl, rfl, rfl⟩)
  | hardware =>
    cases hd : decodeEvent s.nextStimulus.label s.nextStimulus.data with
    | some i => exact .inr (.inr (.inl ⟨i, rfl, rfl, rfl⟩))
    | none => exact .inr (.inr (.inr ⟨rfl, rfl, rfl⟩))

end Sys2Proof.Machine
end

