-- ==== Sys2Proof/Laws/Exec.lean ====
section
/-! SUPPORT. Everything an operation that answers a next state can have done, said once: proofs about all operations go by
cases on `Effect` instead of unfolding the meanings. -/

namespace Sys2Proof.Machine

/-- What the next state of an operation is, with the conditions under which it is that. -/
inductive Effect (s : State) : Instr → State → Prop
  /-- a command answered `c` and changed nothing: a read, or an error -/
  | answered (i : Instr) (c : RespCode) (v : Word) (host : i.isEvent = false) (err : c ≠ .ok → v = 0 ∧ c ≠ .errNores)
      (why : c = .ok → (∀ d k x, i ≠ .stw d k x) ∧ (∀ d sl k x, i ≠ .sts d sl k x) ∧ (∀ d, i ≠ .swap d) ∧
        (∀ d, i ≠ .claim d) ∧ (∀ d, i ≠ .start d) ∧ ∀ d r sl k, i ≠ .config d r sl k) :
      Effect s i (s.respond c v)
  /-- an event that was not enabled -/
  | nothing (i : Instr) (event : i.isEvent = true)
      (why : (∃ d x, i = .beat d x ∧ s.beatEnabled d = false) ∨ ∃ d, i = .oncomp d ∧ s.oncompEnabled d = false) :
      Effect s i s.quiet
  | noResource (d : Dir) (fatal : s.fatal = false) (cst : (s.half d).cst = .free) (pool : s.poolFree = []) :
      Effect s (.claim d) (State.raise { s with fatal := true } .errNores)
  | claimed (d : Dir) (id : ResId) (fatal : s.fatal = false) (cst : (s.half d).cst = .free) (free : id ∈ s.poolFree) :
      Effect s (.claim d) (({ s with poolFree := s.poolFree.filter (· ≠ id) }.setHalf d
        { s.half d with id := some id, cst := .claimed }).respond .ok (BitVec.ofNat 32 id.val))
  | configured (d : Dir) (r : DevDir) (sl : Slot) (k : Index) (fatal : s.fatal = false)
      (cst : (s.half d).cst = .claimed) (dir : r = devDirOf d) (len : k.toNat = s.params.n)
      (slot : sl = dmaSlot d (s.half d)) :
      Effect s (.config d r sl k) ((s.setHalf d { s.half d with
        dirn := r, addr := BitVec.ofNat 17 (slotBase s.params.n sl), len := k, xidx := 0, ie := true,
        cst := .idle }).respond .ok 0)
  | started (d : Dir) (fatal : s.fatal = false) (cst : (s.half d).cst = .idle) :
      Effect s (.start d) ((s.setHalf d { s.half d with
        xidx := 0, cst := .armed, pend := s.params.rearmSetsPending || (s.half d).pend }).respond .ok 0)
  | swapped (d : Dir) (cst : Machine.configured (s.half d).cst = false) :
      Effect s (.swap d) ((s.setHalf d (s.half d).swap).respond .ok (flagWord (s.half d).pend))
  | storedRole (d : Dir) (k : Index) (x : Word) (range : k.toNat < s.params.n) :
      Effect s (.stw d k x) ((s.storeWord d (wordAddr s.params.n (s.half d).writing k) x).respond .ok 0)
  | storedSlot (d : Dir) (sl : Slot) (k : Index) (x : Word) (range : k.toNat < s.params.n) :
      Effect s (.sts d sl k x) ((s.storeWord d (wordAddr s.params.n sl k) x).respond .ok 0)
  | receivedWord (x : Word) (cst : s.inHalf.cst = .armed) (valid : s.oracle.rxValid = true)
      (range : beatAddr s.inHalf < 2 * s.params.n) (index : s.inHalf.xidx.toNat < 65535) :
      Effect s (.beat .inp x) ((s.storeWord .inp (beatAddr s.inHalf) x).countWord .inp).pulseRxPop
  | sentWord (x : Word) (cst : s.outHalf.cst = .armed) (ready : s.oracle.txReady = true)
      (range : beatAddr s.outHalf < 2 * s.params.n) (index : s.outHalf.xidx.toNat < 65535) :
      Effect s (.beat .out x) ((s.countWord .out).pushTx (s.loadWord .out (beatAddr s.outHalf)))
  | handled (d : Dir) (irq : (s.half d).irq = true) :
      Effect s (.oncomp d) (s.setHalf d ((s.half d).handleCompletion s.params d)).quiet
  | wasReset : Effect s .reset { s with
      inHalf := Half.afterReset (Memory.ofImage s.params.n s.oracle.slotsIn)
      outHalf := Half.afterReset (Memory.ofImage s.params.n s.oracle.slotsOut)
      fatal := false
      poolFree := s.params.pool0
      txlog := []
      out := Outputs.quiet }

theorem Effect.of_next {s : State} {i : Instr} {a b : State} (e : Effect s i a)
    (h : Host.Outcome.next (φ := Fault) (ρ := Refusal) a = .next b) : Effect s i b := by
  cases h; exact e

theorem effect_raise (s : State) {i : Instr} {c : RespCode} (host : i.isEvent = false) (h : c ≠ .ok)
    (h' : c ≠ .errNores) : Effect s i (s.raise c) :=
  .answered i c 0 host (fun _ => ⟨rfl, h'⟩) (fun e => absurd e h)

/-- An operation that answers a next state had one of the effects above. -/
theorem exec_effect {i : Instr} {s t : State} (h : exec i s = .next t) : Effect s i t := by
  have read {i : Instr} {v : Word} (host : i.isEvent = false)
      (why : (∀ d k x, i ≠ .stw d k x) ∧ (∀ d sl k x, i ≠ .sts d sl k x) ∧ (∀ d, i ≠ .swap d) ∧
        (∀ d, i ≠ .claim d) ∧ (∀ d, i ≠ .start d) ∧ ∀ d r sl k, i ≠ .config d r sl k) :
      Effect s i (s.respond .ok v) := .answered i .ok v host (fun e => absurd rfl e) (fun _ => why)
  cases i with
  | claim d =>
    simp only [exec, execClaim] at h
    split at h
    · exact (effect_raise s rfl (by decide) (by decide)).of_next h
    · next hf =>
      split at h
      · exact (effect_raise s rfl (by decide) (by decide)).of_next h
      · next hc =>
        split at h
        · next hp =>
          exact (Effect.noResource d (by simpa using hf) (by simpa using hc) ((drawId_eq_none _ _).mp hp)).of_next h
        · next id hp => exact (Effect.claimed d id (by simpa using hf) (by simpa using hc) (drawId_mem hp)).of_next h
  | config d r sl k =>
    simp only [exec, execConfig] at h
    split at h
    · exact (effect_raise s rfl (by decide) (by decide)).of_next h
    · next hf =>
      split at h
      · exact (effect_raise s rfl (by decide) (by decide)).of_next h
      · next hc =>
        split at h
        · next ha =>
          obtain ⟨h1, h2, h3⟩ := (configArgsOk_iff _ _ _ _ _ _).mp ha
          exact (Effect.configured d r sl k (by simpa using hf) (by simpa using hc) h1 h2 h3).of_next h
        · exact (effect_raise s rfl (by decide) (by decide)).of_next h
  | start d =>
    simp only [exec, execStart] at h
    split at h
    · exact (effect_raise s rfl (by decide) (by decide)).of_next h
    · next hf =>
      split at h
      · exact (effect_raise s rfl (by decide) (by decide)).of_next h
      · next hc => exact (Effect.started d (by simpa using hf) (by simpa using hc)).of_next h
  | swap d =>
    simp only [exec, execSwap] at h
    split at h
    · exact (effect_raise s rfl (by decide) (by decide)).of_next h
    · next hc => exact (Effect.swapped d (by simpa using hc)).of_next h
  | ldr d k =>
    simp only [exec, execLdr] at h
    rcases loadSlot_cases s d (s.half d).reading k with ⟨_, e⟩ | ⟨_, e⟩ <;> rw [e] at h
    · exact (effect_raise s rfl (by decide) (by decide)).of_next h
    · exact (read rfl (by simp)).of_next h
  | lds d sl k =>
    simp only [exec, execLds] at h
    rcases loadSlot_cases s d sl k with ⟨_, e⟩ | ⟨_, e⟩ <;> rw [e] at h
    · exact (effect_raise s rfl (by decide) (by decide)).of_next h
    · exact (read rfl (by simp)).of_next h
  | stw d k x =>
    simp only [exec, execStw] at h
    rcases storeSlot_cases s d (s.half d).writing k x with ⟨_, e⟩ | ⟨hk, e⟩ <;> rw [e] at h
    · exact (effect_raise s rfl (by decide) (by decide)).of_next h
    · exact (Effect.storedRole d k x hk).of_next h
  | sts d sl k x =>
    simp only [exec, execSts] at h
    rcases storeSlot_cases s d sl k x with ⟨_, e⟩ | ⟨hk, e⟩ <;> rw [e] at h
    · exact (effect_raise s rfl (by decide) (by decide)).of_next h
    · exact (Effect.storedSlot d sl k x hk).of_next h
  | beat d x =>
    simp only [exec, execBeat] at h
    split at h
    · next he =>
      obtain ⟨hc, hv⟩ : (s.half d).cst = .armed ∧ handshake s.oracle d = true := by
        simpa [State.beatEnabled] using he
      rcases moveWord_cases s d x with ⟨_, e⟩ | ⟨_, _, e⟩ | ⟨h1, h2, ⟨rfl, e⟩ | ⟨rfl, e⟩⟩ <;> rw [e] at h
      · exact nomatch h
      · exact nomatch h
      · exact (Effect.receivedWord x hc hv h1 h2).of_next h
      · exact (Effect.sentWord x hc hv h1 h2).of_next h
    · next he => exact (Effect.nothing _ rfl (.inl ⟨d, x, rfl, by simpa using he⟩)).of_next h
  | oncomp d =>
    simp only [exec, execOncomp] at h
    split at h
    · next he => exact (Effect.handled d he).of_next h
    · next he => exact (Effect.nothing _ rfl (.inr ⟨d, rfl, by simpa using he⟩)).of_next h
  | reset => exact (Effect.wasReset).of_next h
  | nop => exact (read rfl (by simp)).of_next h
  | rdints => exact (read rfl (by simp)).of_next h
  | rdstat d => exact (read rfl (by simp)).of_next h
  | rdaddr d => exact (read rfl (by simp)).of_next h
  | rdlen d => exact (read rfl (by simp)).of_next h
  | rdptr d => exact (read rfl (by simp)).of_next h
  | wrptr d => exact (read rfl (by simp)).of_next h

end Sys2Proof.Machine
end

