-- ==== Sys2Proof/Laws/PerInstr.lean ====
section
/-! SUPPORT. Statements about every instruction, one lemma per constructor. -/

namespace Sys2Proof.Laws

/-- The CLS bit of an operation's label word says whether it is an internal event (R81, R85, R86). -/
def ClassBit.Statement (i : Instr) : Prop := isEventWord (encode i).1 = i.isEvent

/-- Bit 31 of a label word is the upper bit of its class and opcode field. -/
theorem isEventWord_toWord (f : Fields) : isEventWord f.toWord = f.clsOp.getLsbD 4 :=
  (Fields.getLsbD_toWord f 31).trans rfl

/-- An operation whose class and opcode field has the upper bit its class asks for. -/
theorem ClassBit.of_clsOp {i : Instr} (h : (encodeFields i).clsOp.getLsbD 4 = i.isEvent) : ClassBit.Statement i :=
  (isEventWord_toWord (encodeFields i)).trans h

theorem ClassBit.nop : ClassBit.Statement .nop :=
  ClassBit.of_clsOp (by simp [encodeFields, fieldsOf, Instr.isEvent])
theorem ClassBit.claim (d : Dir) : ClassBit.Statement (.claim d) :=
  ClassBit.of_clsOp (by simp [encodeFields, fieldsOf, Instr.isEvent])
theorem ClassBit.config (d : Dir) (r : DevDir) (sl : Slot) (k : Index) : ClassBit.Statement (.config d r sl k) :=
  ClassBit.of_clsOp (by simp [encodeFields, fieldsOf, Instr.isEvent])
theorem ClassBit.start (d : Dir) : ClassBit.Statement (.start d) :=
  ClassBit.of_clsOp (by simp [encodeFields, fieldsOf, Instr.isEvent])
theorem ClassBit.swap (d : Dir) : ClassBit.Statement (.swap d) :=
  ClassBit.of_clsOp (by simp [encodeFields, fieldsOf, Instr.isEvent])
theorem ClassBit.rdptr (d : Dir) : ClassBit.Statement (.rdptr d) :=
  ClassBit.of_clsOp (by simp [encodeFields, fieldsOf, Instr.isEvent])
theorem ClassBit.wrptr (d : Dir) : ClassBit.Statement (.wrptr d) :=
  ClassBit.of_clsOp (by simp [encodeFields, fieldsOf, Instr.isEvent])
theorem ClassBit.ldr (d : Dir) (i : Index) : ClassBit.Statement (.ldr d i) :=
  ClassBit.of_clsOp (by simp [encodeFields, fieldsOf, Instr.isEvent])
theorem ClassBit.stw (d : Dir) (i : Index) (x : Word) : ClassBit.Statement (.stw d i x) :=
  ClassBit.of_clsOp (by simp [encodeFields, fieldsOf, Instr.isEvent])
theorem ClassBit.lds (d : Dir) (sl : Slot) (i : Index) : ClassBit.Statement (.lds d sl i) :=
  ClassBit.of_clsOp (by simp [encodeFields, fieldsOf, Instr.isEvent])
theorem ClassBit.sts (d : Dir) (sl : Slot) (i : Index) (x : Word) : ClassBit.Statement (.sts d sl i x) :=
  ClassBit.of_clsOp (by simp [encodeFields, fieldsOf, Instr.isEvent])
theorem ClassBit.rdints : ClassBit.Statement .rdints :=
  ClassBit.of_clsOp (by simp [encodeFields, fieldsOf, Instr.isEvent])
theorem ClassBit.rdstat (d : Dir) : ClassBit.Statement (.rdstat d) :=
  ClassBit.of_clsOp (by simp [encodeFields, fieldsOf, Instr.isEvent])
theorem ClassBit.rdaddr (d : Dir) : ClassBit.Statement (.rdaddr d) :=
  ClassBit.of_clsOp (by simp [encodeFields, fieldsOf, Instr.isEvent])
theorem ClassBit.rdlen (d : Dir) : ClassBit.Statement (.rdlen d) :=
  ClassBit.of_clsOp (by simp [encodeFields, fieldsOf, Instr.isEvent])
theorem ClassBit.beat (d : Dir) (x : Word) : ClassBit.Statement (.beat d x) :=
  ClassBit.of_clsOp (by simp [encodeFields, fieldsOf, Instr.isEvent])
theorem ClassBit.oncomp (d : Dir) : ClassBit.Statement (.oncomp d) :=
  ClassBit.of_clsOp (by simp [encodeFields, fieldsOf, Instr.isEvent])
theorem ClassBit.reset : ClassBit.Statement .reset :=
  ClassBit.of_clsOp (by simp [encodeFields, fieldsOf, Instr.isEvent])

end Sys2Proof.Laws
end

