-- ==== Sys2Proof/Tests/Slice0.lean ====
section
/-! SUPPORT. Tests of the model against the vectors of `95_test_vectors.md` and the examples of the rules, one step each,
and for every statement with hypotheses a concrete state and operands that meet them. -/

namespace Sys2Proof.Tests

open Sys2Proof.Machine

/- Well-formedness: the one check refuses its ill-formed term. -/

theorem test_wf_refuses_beat_out_operand : (Instr.beat .out 5).wf = false := by decide

theorem test_wf_accepts_beat : (Instr.beat .out 0).wf = true ∧ (Instr.beat .inp 5).wf = true := by decide

/- Decoding, the words of `95_test_vectors.md` section 2.1. -/

theorem test_decode_startup_words :
    decode 0x00000000 0 = some .nop ∧ decode 0x08000000 0 = some (.claim .inp) ∧
    decode 0x0C000000 0 = some (.claim .out) ∧ decode 0x12000008 0 = some (.config .inp .rd .b 8) ∧
    decode 0x15000008 0 = some (.config .out .wr .a 8) ∧ decode 0x1700FFFF 0 = some (.config .out .wr .b 65535) ∧
    decode 0x18000000 0 = some (.start .inp) ∧ decode 0x1C000000 0 = some (.start .out) := by decide

theorem test_decode_buffer_words :
    decode 0x20000000 0 = some (.swap .inp) ∧ decode 0x24000000 0 = some (.swap .out) ∧
    decode 0x28000000 0 = some (.rdptr .inp) ∧ decode 0x2C000000 0 = some (.rdptr .out) ∧
    decode 0x30000000 0 = some (.wrptr .inp) ∧ decode 0x34000000 0 = some (.wrptr .out) ∧
    decode 0x38000007 0 = some (.ldr .inp 7) ∧ decode 0x3C000000 0 = some (.ldr .out 0) := by decide

theorem test_decode_store_words :
    decode 0x44000003 0x11 = some (.stw .out 3 0x11) ∧ decode 0x40000000 0xFFFFFFFF = some (.stw .inp 0 0xFFFFFFFF) ∧
    decode 0x4A000000 0 = some (.lds .inp .b 0) ∧ decode 0x4C000005 0 = some (.lds .out .a 5) ∧
    decode 0x54000000 0xA0 = some (.sts .out .a 0 0xA0) ∧ decode 0x52000001 0 = some (.sts .inp .b 1 0) := by decide

theorem test_decode_status_words :
    decode 0x58000000 0 = some .rdints ∧ decode 0x60000000 0 = some (.rdstat .inp) ∧
    decode 0x64000000 0 = some (.rdstat .out) ∧ decode 0x68000000 0 = some (.rdaddr .inp) ∧
    decode 0x6C000000 0 = some (.rdaddr .out) ∧ decode 0x70000000 0 = some (.rdlen .inp) ∧
    decode 0x74000000 0 = some (.rdlen .out) := by decide

theorem test_decode_event_words :
    decode 0x80000000 0xCAFE0001 = some (.beat .inp 0xCAFE0001) ∧ decode 0x84000000 0 = some (.beat .out 0) ∧
    decode 0x88000000 0 = some (.oncomp .inp) ∧ decode 0x8C000000 0 = some (.oncomp .out) ∧
    decode 0xF8000000 0 = some .reset := by decide

/-- R82: X is ignored where the operation does not use it. -/
theorem test_decode_ignores_data :
    decode 0x08000000 7 = some (.claim .inp) ∧ decode 0x84000000 7 = some (.beat .out 0) := by decide

/-- The illegal words of section 2.1. -/
theorem test_decode_illegal_words :
    decodeCommand 0x78000000 0 = none ∧ decodeCommand 0x00000001 0 = none ∧ decodeCommand 0x20010000 0 = none ∧
    decodeCommand 0x22000000 0 = none ∧ decodeCommand 0x20000005 0 = none ∧ decodeCommand 0x5C000000 0 = none ∧
    decodeCommand 0x39000000 0 = none ∧ decodeCommand 0x4B000000 0 = none ∧ decodeCommand 0x12800008 0 = none := by
  decide

/-- Event words: illegal on the command port, labels elsewhere, but for a reserved one (R89, I8). -/
theorem test_decode_events_by_class :
    decodeCommand 0x80000000 0 = none ∧ decodeCommand 0x88000000 0 = none ∧ decodeCommand 0xF8000000 0 = none ∧
    decodeEvent 0xF8000000 0 = some .reset ∧ decode 0x90000000 0 = none ∧ decodeEvent 0x20000000 0 = none := by decide

/-- R95: the encoding function on its examples. -/
theorem test_encode_examples :
    encode (.config .inp .rd .b 8) = (0x12000008, 0) ∧ encode (.config .out .wr .a 8) = (0x15000008, 0) ∧
    encode (.swap .out) = (0x24000000, 0) ∧ encode (.ldr .inp 3) = (0x38000003, 0) ∧
    encode (.stw .out 3 0x11) = (0x44000003, 0x11) ∧ encode (.lds .inp .b 0) = (0x4A000000, 0) ∧
    encode (.beat .inp 0xCAFE0001) = (0x80000000, 0xCAFE0001) ∧ encode (.beat .out 0) = (0x84000000, 0) ∧
    encode (.oncomp .out) = (0x8C000000, 0) ∧ encode .reset = (0xF8000000, 0) := by decide

theorem test_table_word_has_no_data :
    decodeTableWord 32 0x40000003 = some (.stw .inp 3 0) ∧ decodeTableWord 64 0x1140000003 = some (.stw .inp 3 0x11) ∧
    decodeTableWord 32 0x78000000 = none := by decide

/-- R93: the texts of its examples. -/
theorem test_assembler_text :
    asmText (.config .inp .rd .b 8) = "CONFIG IN, RD, B, 8" ∧ asmText (.stw .out 3 0x11) = "STW OUT, 3, #0x11" ∧
    asmText (.lds .inp .b 0) = "LDS IN, B, 0" ∧ asmText (.beat .out 0) = "BEAT OUT" ∧ asmText .rdints = "RDINTS" ∧
    asmText (.beat .inp 0xCAFE0001) = "BEAT IN, #0xCAFE0001" := by decide

/- States. -/

/-- The state after reset of an instance with the given N and REARM_SETS_PENDING; the handshakes are asserted. -/
def fresh (n : Nat) (rearm : Bool := true) : State :=
  { State.reset with
    params := { Params.standard with n := n, rearmSetsPending := rearm }
    oracle := { Oracle.silent with rxValid := true, txReady := true } }

/-- A configured channel that works on the slot the roles `rsel` give it, with `k` words moved. -/
def channel (d : Dir) (n : Nat) (c : ChanState) (k : Index) (rsel : Slot := .a) (pend : Bool := true) : Half :=
  { rsel := rsel, pend := pend, mem := ⟨[]⟩, cst := c,
    id := some (match d with | .inp => 0 | .out => 1), dirn := devDirOf d,
    addr := BitVec.ofNat 17 (slotBase n (dmaSlot d { Half.afterReset ⟨[]⟩ with rsel := rsel })),
    len := BitVec.ofNat 16 n, xidx := k, ip := decide (c = .done), ie := true }

/-- Both channels configured, in the given states, with no free id left. -/
def running (n : Nat) (cin cout : ChanState) (kin kout : Index) (rearm : Bool := true) : State :=
  { fresh n rearm with inHalf := channel .inp n cin kin, outHalf := channel .out n cout kout, poolFree := [] }

/-- FREE became CLAIMED. -/
def claimed (n : Nat) : State :=
  { fresh n with inHalf := { Half.afterReset ⟨[]⟩ with cst := .claimed, id := some 0 }, poolFree := [1] }

/-- `SLOT[IN][A]` = [5, 6, 7, 8] and `SLOT[IN][B]` = [1, 2, 3, 4] after reset, N = 4 (section 2.2). -/
def filled : State :=
  [(0, 5), (1, 6), (2, 7), (3, 8), (4, 1), (5, 2), (6, 3), (7, 4)].foldl (fun s c => s.storeWord .inp c.1 c.2) (fresh 4)

/-- The next state, or the state itself where there is none. -/
def after (i : Instr) (s : State) : State :=
  match exec i s with
  | .next t => t
  | _ => s

/-- The response of an operation. -/
def answer (i : Instr) (s : State) : Option Response :=
  match exec i s with
  | .next t => t.out.resp
  | _ => none

/- Status reads (section 2.4). -/

theorem test_nop : answer .nop (fresh 8) = some ⟨.ok, 0⟩ := by decide

theorem test_rdints_both : answer .rdints (running 4 .done .done 4 4) = some ⟨.ok, 3⟩ := by decide

theorem test_rdints_one : answer .rdints (running 4 .done .armed 4 1) = some ⟨.ok, 1⟩ := by decide

theorem test_rdstat_done : answer (.rdstat .out) (running 4 .idle .done 0 4) = some ⟨.ok, 0x000400EC⟩ := by decide

theorem test_rdstat_fatal :
    answer (.rdstat .inp) { claimed 8 with fatal := true } = some ⟨.ok, 0x00000109⟩ := by decide

theorem test_rdaddr : answer (.rdaddr .inp) (running 8 .idle .idle 0 0) = some ⟨.ok, 8⟩ := by decide

theorem test_rdlen : answer (.rdlen .out) (running 8 .idle .idle 0 0) = some ⟨.ok, 8⟩ := by decide

/- The Double Buffer (section 2.2). -/

theorem test_rdptr : answer (.rdptr .inp) (fresh 8) = some ⟨.ok, 0⟩ := by decide

theorem test_wrptr : answer (.wrptr .inp) (fresh 8) = some ⟨.ok, 8⟩ := by decide

theorem test_ldr_last_index : answer (.ldr .inp 3) filled = some ⟨.ok, 8⟩ := by decide

theorem test_ldr_out_of_range : answer (.ldr .inp 4) filled = some ⟨.errArg, 0⟩ := by decide

theorem test_lds : answer (.lds .inp .b 2) filled = some ⟨.ok, 3⟩ := by decide

theorem test_stw_writing_slot :
    answer (.lds .inp .b 0) (after (.stw .inp 0 0xFFFFFFFF) filled) = some ⟨.ok, 0xFFFFFFFF⟩ := by decide

theorem test_stw_out_of_range : answer (.stw .inp 4 1) filled = some ⟨.errArg, 0⟩ := by decide

theorem test_sts_named_slot :
    answer (.ldr .inp 3) (after (.sts .inp .a 3 9) filled) = some ⟨.ok, 9⟩ := by decide

theorem test_swap_publishes : answer (.ldr .inp 1) (after (.swap .inp) filled) = some ⟨.ok, 2⟩ := by decide

theorem test_swap_second_is_no_op :
    answer (.swap .inp) filled = some ⟨.ok, 1⟩ ∧ answer (.swap .inp) (after (.swap .inp) filled) = some ⟨.ok, 0⟩ := by
  decide

/- The Transfer Engine (sections 2.3 and 2.5). -/

theorem test_claim : answer (.claim .inp) (fresh 2) = some ⟨.ok, 0⟩ := by decide

theorem test_claim_empty_pool :
    answer (.claim .inp) { fresh 2 with poolFree := [] } = some ⟨.errNores, 0⟩ ∧
    (after (.claim .inp) { fresh 2 with poolFree := [] }).fatal = true := by decide

theorem test_config :
    ((after (.config .inp .rd .b 8) (claimed 8)).inHalf.addr, (after (.config .inp .rd .b 8) (claimed 8)).inHalf.len,
      (after (.config .inp .rd .b 8) (claimed 8)).inHalf.cst) = (8, 8, .idle) := by decide

theorem test_config_wrong_slot : answer (.config .inp .rd .a 8) (claimed 8) = some ⟨.errArg, 0⟩ := by decide

theorem test_start :
    answer (.rdstat .inp) (after (.start .inp) (running 2 .idle .idle 0 0)) = some ⟨.ok, 0x0000004B⟩ := by decide

theorem test_start_twice :
    answer (.start .inp) (after (.start .inp) (running 2 .idle .idle 0 0)) = some ⟨.errState, 0⟩ := by decide

theorem test_beat_last_word :
    answer (.rdstat .inp) (after (.beat .inp 0xE2) (running 2 .armed .idle 1 0)) = some ⟨.ok, 0x0002006C⟩ := by decide

theorem test_beat_out_pushes_reading_slot :
    (after (.beat .out 0) ((running 2 .idle .armed 0 0).storeWord .out 0 0xA0)).txlog = [0xA0] := by decide

theorem test_oncomp :
    answer (.rdstat .inp) (after (.oncomp .inp) (running 2 .done .idle 2 0)) = some ⟨.ok, 0x0000005B⟩ ∧
    answer (.rdaddr .inp) (after (.oncomp .inp) (running 2 .done .idle 2 0)) = some ⟨.ok, 0⟩ := by decide

theorem test_oncomp_literal_mode :
    (after (.oncomp .inp) { running 2 .done .idle 2 0 false with
      inHalf := channel .inp 2 .done 2 .b false }).inHalf.rsel = .b := by decide

theorem test_reset : answer (.rdstat .inp) (after .reset (running 2 .done .armed 2 1)) = some ⟨.ok, 8⟩ := by decide

theorem test_reset_slots :
    answer (.lds .out .b 1) (after .reset
      { fresh 2 with oracle := { Oracle.silent with slotsOut := [(12, 0x34), (13, 0x12)] } }) =
      some ⟨.ok, 0x1234⟩ := by decide

/- Byte order. -/

theorem test_byte_order_places_bytes :
    ((⟨[]⟩ : Memory).setWord .little 1 0x11223344).byte 4 = 0x44 ∧
    ((⟨[]⟩ : Memory).setWord .big 1 0x11223344).byte 4 = 0x11 ∧
    ((⟨[]⟩ : Memory).setWord .big 1 0x11223344).word .big 1 = 0x11223344 := by decide

/- The step. -/

/-- The response `step` gives. -/
def stepAnswer (s : State) : Option Response :=
  match step s with
  | .next t => t.out.resp
  | _ => none

theorem test_step_runs_table_word : stepAnswer (State.reset.withFetchWord 32 0x30000000) = some ⟨.ok, 8⟩ := by decide

theorem test_step_illegal_word : stepAnswer (State.reset.withFetchWord 32 0x78000000) = some ⟨.errIllegal, 0⟩ := by decide

/- Witnesses: for every statement with hypotheses, states and operands that meet all of them together. -/

theorem witness_DecodeEncodeRoundTrip :
    (Instr.sts .out .b 65535 0xFFFFFFFF).wf = true ∧ (Instr.beat .out 0).wf = true := by decide

theorem witness_EncodeDecodeRoundTrip :
    decode 0x5600FFFF 0xFFFFFFFF = some (.sts .out .b 65535 0xFFFFFFFF) ∧ decode 0x20000000 9 = some (.swap .inp) := by
  decide

theorem witness_DecoderFollowsOpcodeMap : decode 0x1700FFFF 0 = some (.config .out .wr .b 65535) := by decide

/-- A label on the command port and an event of the hardware, each with nothing pending after it. -/
theorem witness_StepRunsDecodedLabel :
    { fresh 8 with pending := [stimulusOf 0x20000000 0] }.pending = stimulusOf 0x20000000 0 :: [] ∧
    decode (stimulusOf 0x20000000 0).label (stimulusOf 0x20000000 0).data = some (.swap .inp) ∧
    (stimulusOf 0x20000000 0).source = .port ∧ (Instr.swap .inp).isEvent = false ∧
    decode (stimulusOf 0x84000000 0).label (stimulusOf 0x84000000 0).data = some (.beat .out 0) ∧
    (stimulusOf 0x84000000 0).source = .hardware ∧ (Instr.beat .out 0).isEvent = true ∧
    (fresh 8).pending = [] := by decide

/-- An event word on the command port. -/
def forgedReset : Stimulus := { source := .port, label := 0xF8000000, data := 0, oracle := Oracle.silent }

theorem witness_IllegalWordAnswersErrIllegal :
    { fresh 8 with pending := [stimulusOf 0x78000000 0] }.pending = stimulusOf 0x78000000 0 :: [] ∧
    (stimulusOf 0x78000000 0).source = .port ∧ decode (stimulusOf 0x78000000 0).label 0 = none ∧
    forgedReset.source = .port ∧ forgedReset.label.getLsbD 31 = true := by decide

theorem witness_ReadsChangeNothing : isRead .nop = true ∧ isRead (.ldr .out 65535) = true := by decide

theorem witness_PointersNeverEqual : (fresh 1).params.wf = true ∧ (fresh 65535).params.wf = true := by decide

theorem witness_LdrReadsReadingSlot :
    (3 : Index).toNat < filled.params.n ∧ filled.params.n ≤ (4 : Index).toNat := by decide

theorem witness_LdsReadsNamedSlot :
    (3 : Index).toNat < filled.params.n ∧ filled.params.n ≤ (65535 : Index).toNat := by decide

theorem witness_StwStoresWritingSlot :
    (filled.half .inp).mem.wf = true ∧ (3 : Index).toNat < filled.params.n ∧
    filled.params.n ≤ (4 : Index).toNat := by decide

theorem witness_StsStoresNamedSlot :
    (filled.half .inp).mem.wf = true ∧ (0 : Index).toNat < filled.params.n ∧
    filled.params.n ≤ (4 : Index).toNat := by decide

theorem witness_SwapExchangesRolesWhenDue :
    ((fresh 4).half .inp).cst = .free ∧ ((fresh 4).half .inp).pend = true ∧
    ((after (.swap .inp) (fresh 4)).half .inp).cst = .free ∧
    ((after (.swap .inp) (fresh 4)).half .inp).pend = false ∧
    ((claimed 4).half .inp).cst = .claimed ∧ ((claimed 4).half .inp).pend = true ∧
    ((running 4 .idle .armed 0 3).half .inp).cst = .idle ∧ ((running 4 .idle .armed 0 3).half .out).cst = .armed ∧
    ((running 4 .done .armed 4 3).half .inp).cst = .done := by decide

theorem witness_SecondSwapIsNoOp :
    ((fresh 4).half .out).cst = .free ∧ ((claimed 4).half .inp).cst = .claimed := by decide

theorem witness_SwapPublishesWritingSlot :
    (filled.half .inp).pend = true ∧ (filled.half .inp).cst = .free ∧ (3 : Index).toNat < filled.params.n := by decide

theorem witness_StoreThenLoad :
    (filled.half .inp).mem.wf = true ∧ (3 : Index).toNat < filled.params.n ∧ (0 : Index).toNat < filled.params.n := by
  decide

theorem witness_EffectiveSwapsAlternateRoles :
    ((running 1 .armed .idle 0 0).half .inp).rsel = .a ∧
    Instr.reset ∉ [Instr.beat .inp 7, .oncomp .inp, .rdptr .inp] ∧
    execAll [.beat .inp 7, .oncomp .inp, .rdptr .inp] (running 1 .armed .idle 0 0) =
      .next (after (.rdptr .inp) (after (.oncomp .inp) (after (.beat .inp 7) (running 1 .armed .idle 0 0)))) ∧
    effectiveSwaps .inp [.beat .inp 7, .oncomp .inp, .rdptr .inp] (running 1 .armed .idle 0 0) = 1 :=
  ⟨by decide, by decide, rfl, by decide⟩

theorem witness_ClaimTakesOneFreeId :
    { fresh 2 with fatal := true }.fatal = true ∧ (claimed 2).fatal = false ∧ ((claimed 2).half .inp).cst ≠ .free ∧
    (fresh 2).fatal = false ∧ ((fresh 2).half .inp).cst = .free ∧ (fresh 2).poolFree ≠ [] ∧
    { fresh 2 with poolFree := [] }.poolFree = [] := by decide

theorem witness_ClaimMayDrawAnyFreeId :
    (fresh 2).fatal = false ∧ ((fresh 2).half .out).cst = .free ∧ (1 : ResId) ∈ (fresh 2).poolFree := by decide

/-- Each clause; of the operand clause one witness per check, the length one below and one above N. -/
theorem witness_ConfigBindsChannel :
    { fresh 8 with fatal := true }.fatal = true ∧ (fresh 8).fatal = false ∧ ((fresh 8).half .inp).cst ≠ .claimed ∧
    (claimed 8).fatal = false ∧ ((claimed 8).half .inp).cst = .claimed ∧
    DevDir.wr ≠ (if Dir.inp = .inp then .rd else .wr) ∧ (7 : Index).toNat ≠ (claimed 8).params.n ∧
    (9 : Index).toNat ≠ (claimed 8).params.n ∧ Slot.a ≠ dmaSlot .inp ((claimed 8).half .inp) ∧
    DevDir.rd = (if Dir.inp = .inp then .rd else .wr) ∧ (8 : Index).toNat = (claimed 8).params.n ∧
    Slot.b = dmaSlot .inp ((claimed 8).half .inp) := by decide

theorem witness_StartArmsChannel :
    { fresh 8 with fatal := true }.fatal = true ∧ (claimed 8).fatal = false ∧ ((claimed 8).half .inp).cst ≠ .idle ∧
    (running 8 .idle .idle 0 0).fatal = false ∧ ((running 8 .idle .idle 0 0).half .out).cst = .idle := by decide

/-- A word in the middle of a block and the last one. -/
theorem witness_BeatInStoresReceivedWord :
    (running 2 .armed .idle 1 0).inHalf.cst = .armed ∧ (running 2 .armed .idle 1 0).oracle.rxValid = true ∧
    (running 2 .armed .idle 1 0).inHalf.mem.wf = true ∧
    beatAddr (running 2 .armed .idle 1 0).inHalf < 2 * (running 2 .armed .idle 1 0).params.n ∧
    (running 2 .armed .idle 1 0).inHalf.xidx.toNat < 65535 ∧
    beatAddr (running 2 .armed .idle 0 0).inHalf < 2 * (running 2 .armed .idle 0 0).params.n ∧
    (running 2 .armed .idle 0 0).inHalf.xidx.toNat < 65535 := by decide

theorem witness_BeatOutPushesSlotWord :
    (running 2 .idle .armed 0 1).outHalf.cst = .armed ∧ (running 2 .idle .armed 0 1).oracle.txReady = true ∧
    beatAddr (running 2 .idle .armed 0 1).outHalf < 2 * (running 2 .idle .armed 0 1).params.n ∧
    (running 2 .idle .armed 0 1).outHalf.xidx.toNat < 65535 := by decide

/-- States no run reaches: the index at its end with the address in range and out of range. -/
def beyond (n : Nat) (k : Index) : State :=
  { fresh n with inHalf := { channel .inp n .armed k with addr := 0 } }

theorem witness_ModelStops :
    ((beyond 2 4).half .inp).cst = .armed ∧ handshake (beyond 2 4).oracle .inp = true ∧
    2 * (beyond 2 4).params.n ≤ beatAddr ((beyond 2 4).half .inp) ∧
    ((beyond 65535 65535).half .inp).cst = .armed ∧ handshake (beyond 65535 65535).oracle .inp = true ∧
    beatAddr ((beyond 65535 65535).half .inp) < 2 * (beyond 65535 65535).params.n ∧
    65535 ≤ ((beyond 65535 65535).half .inp).xidx.toNat ∧
    { fresh 2 with pending := [stimulusOf 0x90000000 0] }.pending = stimulusOf 0x90000000 0 :: [] ∧
    (stimulusOf 0x90000000 0).source = .hardware ∧ decode (stimulusOf 0x90000000 0).label 0 = none := by decide

/-- The state with both handshakes deasserted. -/
def stalled (s : State) : State := { s with oracle := Oracle.silent }

theorem witness_DisabledBeatLeavesNoTrace :
    ((running 2 .idle .done 0 2).half .inp).cst ≠ .armed ∧
    (if Dir.out = .inp then (stalled (running 2 .idle .armed 0 1)).oracle.rxValid
      else (stalled (running 2 .idle .armed 0 1)).oracle.txReady) = false := by decide

theorem witness_StalledChannelStaysArmed :
    Instr.beat .inp 5 ≠ .reset ∧ ((stalled (running 2 .armed .idle 1 0)).half .inp).cst = .armed ∧
    ((stalled (running 2 .armed .idle 1 0)).half .inp).ip = false ∧
    handshake (stalled (running 2 .armed .idle 1 0)).oracle .inp = false ∧
    exec (.beat .inp 5) (stalled (running 2 .armed .idle 1 0)) =
      .next (after (.beat .inp 5) (stalled (running 2 .armed .idle 1 0))) :=
  ⟨by decide, by decide, by decide, by decide, rfl⟩

/-- A handler with the swap due, one with it not due, and a channel that has not completed. -/
theorem witness_OncompSwapsAndRearms :
    ((running 2 .done .armed 2 0).half .inp).ip = true ∧ ((running 2 .done .armed 2 0).half .inp).ie = true ∧
    ((running 2 .done .armed 2 0).half .inp).pend = true ∧ (channel .inp 2 .done 2 .b false).ip = true ∧
    (channel .inp 2 .done 2 .b false).ie = true ∧ (channel .inp 2 .done 2 .b false).pend = false ∧
    ((running 2 .done .armed 2 0).half .out).ip = false := by decide

/-- The invariants of a channel `channel` builds, by evaluation. -/
theorem inv_done : Half.Inv (fresh 2).params .inp (channel .inp 2 .done 2) := by constructor <;> decide

theorem inv_armed : Half.Inv (fresh 2).params .inp (channel .inp 2 .armed 0) := by constructor <;> decide

theorem inv_armed_out : Half.Inv (fresh 2).params .out (channel .out 2 .armed 0) := by constructor <;> decide

theorem inv_done_out : Half.Inv (fresh 2).params .out (channel .out 2 .done 2) := by constructor <;> decide

/-- A running instance with N = 2 meets the invariants when its two halves do. -/
theorem inv_running {cin cout : ChanState} {kin kout : Index} {rearm : Bool}
    (hi : Half.Inv (fresh 2 rearm).params .inp (channel .inp 2 cin kin))
    (ho : Half.Inv (fresh 2 rearm).params .out (channel .out 2 cout kout)) :
    (running 2 cin cout kin kout rearm).Inv where
  params_wf := show (fresh 2 rearm).params.wf = true by cases rearm <;> decide
  half d := by cases d <;> assumption
  pool_rising := rfl
  id_owned d id _ := by simp [running]
  ids_differ id h := by
    have e : some (0 : ResId) = some id := h
    cases e
    exact fun c => absurd c (by simp [running, channel])

theorem witness_EveryCompletionSwapsOnce :
    (running 2 .done .armed 2 0).Inv ∧ (running 2 .done .armed 2 0).params.rearmSetsPending = true ∧
    ((running 2 .done .armed 2 0).half .inp).cst = .done :=
  ⟨inv_running inv_done inv_armed_out, by decide, by decide⟩

/-- The literal mode after the first completion: the roles have been exchanged, no swap is due, and a block is done. -/
def literal : State :=
  { running 2 .done .armed 2 0 false with inHalf := channel .inp 2 .done 2 .b false }

theorem witness_LiteralModeNeverSwapsAgain :
    literal.Inv ∧ literal.params.rearmSetsPending = false ∧ (literal.half .inp).pend = false ∧
    Instr.oncomp .inp ≠ .reset ∧ exec (.oncomp .inp) literal = .next (after (.oncomp .inp) literal) := by
  refine ⟨⟨by decide, fun d => ?_, rfl, fun d id _ => by simp [literal, running], fun id h => ?_⟩, by decide, by decide,
    by decide, rfl⟩
  · cases d <;> constructor <;> decide
  · have e : some (0 : ResId) = some id := h
    cases e
    exact fun c => absurd c (by simp [literal, running, channel])

theorem witness_HandlersCommute :
    (running 2 .done .done 2 2).inHalf.irq = true ∧ (running 2 .done .done 2 2).outHalf.irq = true := by decide

theorem witness_InputBlockBecomesReadable :
    (running 2 .armed .armed 0 0).Inv ∧ (running 2 .armed .armed 0 0).params.rearmSetsPending = true ∧
    (running 2 .armed .armed 0 0).inHalf.cst = .armed ∧ (running 2 .armed .armed 0 0).inHalf.xidx = 0 ∧
    (running 2 .armed .armed 0 0).oracle.rxValid = true ∧
    ([7, 9] : List Word).length = (running 2 .armed .armed 0 0).params.n ∧
    (1 : Index).toNat < ([7, 9] : List Word).length :=
  ⟨inv_running inv_armed inv_armed_out, by decide, by decide, by decide, by decide, by decide, by decide⟩

theorem witness_OutputBlockIsReadingSlot :
    (running 2 .armed .armed 0 0).Inv ∧ (running 2 .armed .armed 0 0).outHalf.cst = .armed ∧
    (running 2 .armed .armed 0 0).outHalf.xidx = 0 ∧ (running 2 .armed .armed 0 0).oracle.txReady = true :=
  ⟨inv_running inv_armed inv_armed_out, by decide, by decide, by decide⟩

theorem inv_fresh : (fresh 2).Inv := by
  refine ⟨by decide, fun d => ?_, by decide, fun d id h => ?_, fun id h => ?_⟩
  · cases d <;> constructor <;> decide
  · cases d <;> exact nomatch h
  · exact nomatch h

theorem witness_StartupSequenceArmsChannel :
    (fresh 2).Inv ∧ ((fresh 2).half .out).cst = .free ∧ (fresh 2).fatal = false ∧ (fresh 2).poolFree ≠ [] :=
  ⟨inv_fresh, by decide, by decide, by decide⟩

/-- The last byte of a slot memory of two words. -/
theorem witness_SlotContentsAfterResetAreFree :
    (⟨[(0, 1), (7, 9)]⟩ : Memory).wf = true ∧ (⟨[]⟩ : Memory).wf = true ∧
    (∀ c ∈ (⟨[(0, 1), (7, 9)]⟩ : Memory).cells, c.1 < 8 * (fresh 1).params.n) ∧
    (∀ c ∈ (⟨[]⟩ : Memory).cells, c.1 < 8 * (fresh 1).params.n) := by decide

theorem witness_HostCommandsAlwaysAnswer :
    (Instr.sts .out .b 65535 0).isEvent = false ∧ (Instr.oncomp .inp).isEvent = true ∧
    exec (.oncomp .inp) (running 2 .done .armed 2 0) = .next (after (.oncomp .inp) (running 2 .done .armed 2 0)) :=
  ⟨by decide, by decide, rfl⟩

theorem witness_ErrorsChangeNothing :
    exec (.ldr .inp 4) filled = .next (after (.ldr .inp 4) filled) ∧
    (after (.ldr .inp 4) filled).out.resp = some ⟨.errArg, 0⟩ ∧ RespCode.errArg ≠ .ok ∧
    exec (.claim .inp) { fresh 2 with poolFree := [] } = .next (after (.claim .inp) { fresh 2 with poolFree := [] }) ∧
    (after (.claim .inp) { fresh 2 with poolFree := [] }).out.resp = some ⟨.errNores, 0⟩ :=
  ⟨rfl, by decide, by decide, rfl, by decide⟩

theorem witness_DirectionsAreIndependent :
    instrDir (.beat .inp 7) = some .inp ∧
    exec (.beat .inp 7) (running 2 .armed .done 0 2) = .next (after (.beat .inp 7) (running 2 .armed .done 0 2)) :=
  ⟨by decide, rfl⟩

theorem witness_ChannelStateTransitions :
    exec (.beat .inp 7) (running 2 .armed .idle 1 0) = .next (after (.beat .inp 7) (running 2 .armed .idle 1 0)) ∧
    (after (.beat .inp 7) (running 2 .armed .idle 1 0)).inHalf.cst = .done ∧
    exec (.oncomp .inp) (running 2 .done .armed 2 0) = .next (after (.oncomp .inp) (running 2 .done .armed 2 0)) ∧
    (running 2 .done .armed 2 0).Inv :=
  ⟨rfl, by decide, rfl, inv_running inv_done inv_armed_out⟩

theorem witness_OnlyListedOperationsWrite :
    exec (.stw .out 0 1) (fresh 2) = .next (after (.stw .out 0 1) (fresh 2)) ∧ Instr.stw .out 0 1 ≠ .reset :=
  ⟨rfl, by decide⟩

theorem witness_RolesChangeOnlyAtCompletion :
    exec (.oncomp .out) (running 2 .idle .done 0 2) = .next (after (.oncomp .out) (running 2 .idle .done 0 2)) ∧
    configured ((running 2 .idle .done 0 2).half .out).cst = true ∧
    ((after (.oncomp .out) (running 2 .idle .done 0 2)).half .out).rsel ≠ ((running 2 .idle .done 0 2).half .out).rsel :=
  ⟨rfl, by decide, by decide⟩

theorem witness_FatalIsSticky :
    exec (.claim .out) { fresh 2 with poolFree := [] } = .next (after (.claim .out) { fresh 2 with poolFree := [] }) ∧
    { fresh 2 with poolFree := [] }.fatal = false ∧
    (after (.claim .out) { fresh 2 with poolFree := [] }).fatal = true ∧
    exec .nop { fresh 2 with fatal := true } = .next (after .nop { fresh 2 with fatal := true }) ∧
    { fresh 2 with fatal := true }.fatal = true :=
  ⟨rfl, by decide, by decide, rfl, by decide⟩

theorem witness_FatalStopsOnlyStartup :
    (∀ d, Instr.swap .inp ≠ .claim d ∧ Instr.swap .inp ≠ .start d ∧ Instr.swap .inp ≠ .rdstat d ∧
      ∀ r sl k, Instr.swap .inp ≠ .config d r sl k) ∧
    Instr.swap .inp ≠ .reset ∧ exec (.swap .inp) (fresh 2) = .next (after (.swap .inp) (fresh 2)) :=
  ⟨fun _ => ⟨nofun, nofun, nofun, nofun⟩, nofun, rfl⟩

theorem witness_TxlogOnlyGrows :
    exec (.beat .out 0) (running 2 .idle .armed 0 1) = .next (after (.beat .out 0) (running 2 .idle .armed 0 1)) ∧
    Instr.beat .out 0 ≠ .reset :=
  ⟨rfl, by decide⟩

/-- One word of `SLOT[IN][A]`, its bytes in either order. -/
def oneWord (o : ByteOrder) : State :=
  { fresh 2 with
    params := { (fresh 2).params with byteOrder := o }
    inHalf := { Half.afterReset ⟨match o with | .little => [(0, 1)] | .big => [(3, 1)]⟩ with pend := true } }

theorem witness_ByteOrderIsUnobservable :
    SameWords (oneWord .little) (oneWord .big) ∧ Instr.ldr .inp 0 ≠ .reset ∧
    exec (.ldr .inp 0) (oneWord .little) = .next (after (.ldr .inp 0) (oneWord .little)) := by
  refine ⟨⟨rfl, fun d => by cases d <;> rfl, fun d a => ?_, fun d => by cases d <;> decide, rfl, rfl, rfl, rfl, rfl, rfl,
    rfl⟩, by decide, rfl⟩
  cases d
  · match a with
    | 0 => decide
    | a + 1 =>
      simp [State.loadWord, State.half, oneWord, Memory.word, Memory.byte, byteAddr, cellsGet, Half.afterReset]
      repeat rw [if_neg (by omega)]
      decide
  · rfl

theorem witness_StepKeepsInvariants :
    { running 2 .armed .armed 0 0 with pending := [stimulusOf 0x80000000 7] }.Inv ∧
    step { running 2 .armed .armed 0 0 with pending := [stimulusOf 0x80000000 7] } =
      .next (after (.beat .inp 7) { running 2 .armed .armed 0 0 with oracle := (stimulusOf 0x80000000 7).oracle }) :=
  ⟨⟨(inv_running inv_armed inv_armed_out).1, (inv_running inv_armed inv_armed_out).2,
    (inv_running inv_armed inv_armed_out).3, (inv_running inv_armed inv_armed_out).4,
    (inv_running inv_armed inv_armed_out).5⟩, rfl⟩

theorem witness_StepNeverFaults : (running 2 .armed .done 0 2).Inv := inv_running inv_armed inv_done_out

theorem witness_BeatStaysInChannelSlot :
    (running 2 .armed .armed 0 0).Inv ∧
    exec (.beat .inp 7) (running 2 .armed .armed 0 0) = .next (after (.beat .inp 7) (running 2 .armed .armed 0 0)) ∧
    (1 : Index).toNat < (running 2 .armed .armed 0 0).params.n :=
  ⟨inv_running inv_armed inv_armed_out, rfl, by decide⟩

/- Runs. -/

/-- The completed channel whose handler is taken at every moment it is enabled: DONE at 0, ARMED and stalled from 1 on. -/
def handledRun : Nat → State
  | 0 => stalled (running 2 .done .idle 2 0)
  | _ + 1 => after (.oncomp .inp) (stalled (running 2 .done .idle 2 0))

theorem witness_InterruptIsEventuallyHandled :
    IsRun handledRun (fun _ => .oncomp .inp) (fun _ => Oracle.silent) ∧
    WeaklyFair handledRun (fun _ => .oncomp .inp) (fun _ => Oracle.silent) ∧
    ((handledRun 0).half .inp).irq = true := by
  refine ⟨fun n => by cases n <;> rfl, fun d n => ⟨fun h => ?_, fun h => ?_⟩, by decide⟩
  · have e : handshake Oracle.silent d = true := (h n (Nat.le_refl n)).2
    cases d <;> exact nomatch e
  · cases d
    · exact ⟨n, Nat.le_refl n, rfl⟩
    · have e : (handledRun 1).oncompEnabled .out = true := h (n + 1) (Nat.le_succ n)
      exact absurd e (by decide)

/-- A block of one word that is complete at moment 1; from moment 2 on the machine is held in reset. -/
def oneWordRun : Nat → State
  | 0 => running 1 .armed .idle 0 0
  | 1 => after (.beat .inp 7) (running 1 .armed .idle 0 0)
  | _ + 2 => after .reset (running 1 .armed .idle 0 0)

theorem witness_BlockIsEventuallyComplete :
    IsRun oneWordRun (fun n => if n = 0 then .beat .inp 7 else .reset) (fun _ => (fresh 1).oracle) ∧
    WeaklyFair oneWordRun (fun n => if n = 0 then .beat .inp 7 else .reset) (fun _ => (fresh 1).oracle) ∧
    (oneWordRun 0).Inv ∧ ((oneWordRun 0).half .inp).cst = .armed ∧
    (∀ m, 0 ≤ m → handshake (fresh 1).oracle .inp = true) := by
  refine ⟨fun n => ?_, fun d n => ⟨fun h => ?_, fun h => ?_⟩, ⟨by decide, fun d => ?_, rfl,
    fun d id _ => by simp [oneWordRun, running], fun id h => ?_⟩, by decide, fun _ _ => by decide⟩
  · match n with
    | 0 => rfl
    | 1 => rfl
    | _ + 2 => rfl
  · have e : ((oneWordRun 2).half d).cst = .armed := (h (n + 2) (by omega)).1
    cases d <;> exact absurd e (by decide)
  · have e : (oneWordRun 2).oncompEnabled d = true := h (n + 2) (by omega)
    cases d <;> exact absurd e (by decide)
  · cases d <;> constructor <;> decide
  · have e : some (0 : ResId) = some id := h
    cases e
    exact fun c => absurd c (by simp [oneWordRun, running, channel])

end Sys2Proof.Tests
end

section
/-! PROOFS. What a step does with the label the environment offers (family `00_scope.md`): the decoder gives back the
fields of the word it reads, so the CLS bit of the word says which source may offer it. -/

namespace Sys2Proof

/- What each format (R82) leaves of a word: the fields it does not use are 0, so the word is that of the operation. -/

theorem Fields.encodeFields_of_formatZ {f : Fields} {i j : Instr} {c : BitVec 5} (h : f.formatZ i = some j)
    (hc : f.clsOp.toNat = c.toNat) (he : encodeFields i = fieldsOf c) : encodeFields j = f := by
  obtain ⟨c', d, s, r, z, k⟩ := f
  obtain rfl : c' = c := BitVec.eq_of_toNat_eq hc
  obtain ⟨⟨rfl, rfl, rfl, rfl, rfl⟩, rfl⟩ := Fields.formatZ_eq_some.mp h
  simp [he, fieldsOf]

theorem Fields.encodeFields_of_formatD {f : Fields} {i : Dir → Instr} {j : Instr} {c : BitVec 5}
    (h : f.formatD i = some j) (hc : f.clsOp.toNat = c.toNat) (he : ∀ d, encodeFields (i d) = fieldsOf c d.bit) :
    encodeFields j = f := by
  obtain ⟨c', d, s, r, z, k⟩ := f
  obtain rfl : c' = c := BitVec.eq_of_toNat_eq hc
  obtain ⟨⟨rfl, rfl, rfl, rfl⟩, rfl⟩ := Fields.formatD_eq_some.mp h
  simp [he, fieldsOf]

theorem Fields.encodeFields_of_formatDK {f : Fields} {i : Dir → Index → Instr} {j : Instr} {c : BitVec 5}
    (h : f.formatDK i = some j) (hc : f.clsOp.toNat = c.toNat)
    (he : ∀ d k, encodeFields (i d k) = fieldsOf c d.bit (k := k)) : encodeFields j = f := by
  obtain ⟨c', d, s, r, z, k⟩ := f
  obtain rfl : c' = c := BitVec.eq_of_toNat_eq hc
  obtain ⟨⟨rfl, rfl, rfl⟩, rfl⟩ := Fields.formatDK_eq_some.mp h
  simp [he, fieldsOf]

theorem Fields.encodeFields_of_formatDSK {f : Fields} {i : Dir → Slot → Index → Instr} {j : Instr} {c : BitVec 5}
    (h : f.formatDSK i = some j) (hc : f.clsOp.toNat = c.toNat)
    (he : ∀ d sl k, encodeFields (i d sl k) = fieldsOf c d.bit sl.bit (k := k)) : encodeFields j = f := by
  obtain ⟨c', d, s, r, z, k⟩ := f
  obtain rfl : c' = c := BitVec.eq_of_toNat_eq hc
  obtain ⟨⟨rfl, rfl⟩, rfl⟩ := Fields.formatDSK_eq_some.mp h
  simp [he, fieldsOf]

theorem Fields.encodeFields_of_formatC {f : Fields} {i : Dir → DevDir → Slot → Index → Instr} {j : Instr}
    {c : BitVec 5} (h : f.formatC i = some j) (hc : f.clsOp.toNat = c.toNat)
    (he : ∀ d r sl k, encodeFields (i d r sl k) = fieldsOf c d.bit sl.bit r.bit k) : encodeFields j = f := by
  obtain ⟨c', d, s, r, z, k⟩ := f
  obtain rfl : c' = c := BitVec.eq_of_toNat_eq hc
  obtain ⟨rfl, rfl⟩ := Fields.formatC_eq_some.mp h
  simp [he, fieldsOf]

@[simp] theorem encodeFields_beatOf (x : Word) (d : Dir) : encodeFields (beatOf x d) = fieldsOf 0x10 d.bit := by
  cases d <;> rfl

/-- The operation a word decodes to has exactly the fields of that word (R81, R82, R87), one case per row of R85, R86. -/
theorem encodeFields_of_decode {l x : Word} {i : Instr} (h : decode l x = some i) :
    encodeFields i = Fields.ofWord l := by
  unfold decode at h
  dsimp only at h
  split at h
  case h_1 hc => exact Fields.encodeFields_of_formatZ (c := 0x00) h hc rfl
  case h_2 hc => exact Fields.encodeFields_of_formatD (c := 0x01) h hc fun _ => rfl
  case h_3 hc => exact Fields.encodeFields_of_formatC (c := 0x02) h hc fun _ _ _ _ => rfl
  case h_4 hc => exact Fields.encodeFields_of_formatD (c := 0x03) h hc fun _ => rfl
  case h_5 hc => exact Fields.encodeFields_of_formatD (c := 0x04) h hc fun _ => rfl
  case h_6 hc => exact Fields.encodeFields_of_formatD (c := 0x05) h hc fun _ => rfl
  case h_7 hc => exact Fields.encodeFields_of_formatD (c := 0x06) h hc fun _ => rfl
  case h_8 hc => exact Fields.encodeFields_of_formatDK (c := 0x07) h hc fun _ _ => rfl
  case h_9 hc => exact Fields.encodeFields_of_formatDK (c := 0x08) h hc fun _ _ => rfl
  case h_10 hc => exact Fields.encodeFields_of_formatDSK (c := 0x09) h hc fun _ _ _ => rfl
  case h_11 hc => exact Fields.encodeFields_of_formatDSK (c := 0x0A) h hc fun _ _ _ => rfl
  case h_12 hc => exact Fields.encodeFields_of_formatZ (c := 0x0B) h hc rfl
  case h_13 hc => exact Fields.encodeFields_of_formatD (c := 0x0C) h hc fun _ => rfl
  case h_14 hc => exact Fields.encodeFields_of_formatD (c := 0x0D) h hc fun _ => rfl
  case h_15 hc => exact Fields.encodeFields_of_formatD (c := 0x0E) h hc fun _ => rfl
  case h_16 hc => exact Fields.encodeFields_of_formatD (c := 0x10) h hc (encodeFields_beatOf x)
  case h_17 hc => exact Fields.encodeFields_of_formatD (c := 0x11) h hc fun _ => rfl
  case h_18 hc => exact Fields.encodeFields_of_formatZ (c := 0x1F) h hc rfl
  case h_19 => cases h

/-- A decoded label word is the label word of its operation. -/
theorem encode_fst_of_decode {l x : Word} {i : Instr} (h : decode l x = some i) : (encode i).1 = l := by
  unfold encode
  rw [encodeFields_of_decode h, Fields.toWord_ofWord]

/-- The CLS bit of an operation's label word is its class, for every operation. -/
theorem isEventWord_encode (i : Instr) : isEventWord (encode i).1 = i.isEvent := by
  cases i with
  | nop => exact Laws.ClassBit.nop
  | claim d => exact Laws.ClassBit.claim d
  | config d r sl k => exact Laws.ClassBit.config d r sl k
  | start d => exact Laws.ClassBit.start d
  | swap d => exact Laws.ClassBit.swap d
  | rdptr d => exact Laws.ClassBit.rdptr d
  | wrptr d => exact Laws.ClassBit.wrptr d
  | ldr d k => exact Laws.ClassBit.ldr d k
  | stw d k x => exact Laws.ClassBit.stw d k x
  | lds d sl k => exact Laws.ClassBit.lds d sl k
  | sts d sl k x => exact Laws.ClassBit.sts d sl k x
  | rdints => exact Laws.ClassBit.rdints
  | rdstat d => exact Laws.ClassBit.rdstat d
  | rdaddr d => exact Laws.ClassBit.rdaddr d
  | rdlen d => exact Laws.ClassBit.rdlen d
  | beat d x => exact Laws.ClassBit.beat d x
  | oncomp d => exact Laws.ClassBit.oncomp d
  | reset => exact Laws.ClassBit.reset

/-- The CLS bit of a decoded word is the class of the operation it decodes to (R85, R86). -/
theorem isEventWord_of_decode {l x : Word} {i : Instr} (h : decode l x = some i) : isEventWord l = i.isEvent := by
  rw [← isEventWord_encode i, encode_fst_of_decode h]

/-- The command port decodes every host command (R83). -/
theorem decodeCommand_of_decode {l x : Word} {i : Instr} (h : decode l x = some i) (hi : i.isEvent = false) :
    decodeCommand l x = some i := by
  have hcls : isEventWord l = false := (isEventWord_of_decode h).trans hi
  simp [decodeCommand, hcls, h]

/-- The hardware's own steps decode every event (R80, R86). -/
theorem decodeEvent_of_decode {l x : Word} {i : Instr} (h : decode l x = some i) (hi : i.isEvent = true) :
    decodeEvent l x = some i := by
  have hcls : isEventWord l = true := (isEventWord_of_decode h).trans hi
  simp [decodeEvent, hcls, h]

end Sys2Proof

namespace Sys2Proof.Machine

/- Which step is next, and the state it is taken in (R200; log 6). -/

theorem nextStimulus_of_pending_cons {s : State} {t : Stimulus} {r : List Stimulus} (h : s.pending = t :: r) :
    s.nextStimulus = t := by
  simp [State.nextStimulus, h]

theorem accept_of_pending_cons {s : State} {t : Stimulus} {r : List Stimulus} (h : s.pending = t :: r) :
    s.accept = { s with pending := r, oracle := t.oracle } := by
  simp [State.accept, h]

theorem nextStimulus_of_pending_nil {s : State} (h : s.pending = []) :
    s.nextStimulus = Config.nextStimulus s.drawn := by
  simp [State.nextStimulus, h]

theorem accept_of_pending_nil {s : State} (h : s.pending = []) :
    s.accept = { s with drawn := s.drawn + 1, oracle := (Config.nextStimulus s.drawn).oracle } := by
  simp [State.accept, h]

/- A step depends on the state only through the next stimulus and the accepted state. -/

theorem step_congr {s s' : State} (hn : s.nextStimulus = s'.nextStimulus) (ha : s.accept = s'.accept) :
    step s = step s' := by
  unfold step
  rw [hn, ha]

theorem step_of_command {s : State} {i : Instr} (hs : s.nextStimulus.source = .port)
    (hd : decodeCommand s.nextStimulus.label s.nextStimulus.data = some i) : step s = exec i s.accept := by
  simp only [step, hs, hd]

theorem step_of_event {s : State} {i : Instr} (hs : s.nextStimulus.source = .hardware)
    (hd : decodeEvent s.nextStimulus.label s.nextStimulus.data = some i) : step s = exec i s.accept := by
  simp only [step, hs, hd]

/-- A stimulus whose source may offer the operation its label decodes to runs that operation. -/
theorem step_of_decode {s : State} {i : Instr} (hd : decode s.nextStimulus.label s.nextStimulus.data = some i)
    (hsrc : s.nextStimulus.source = .port ∧ i.isEvent = false ∨
      s.nextStimulus.source = .hardware ∧ i.isEvent = true) : step s = exec i s.accept := by
  obtain ⟨hs, hi⟩ | ⟨hs, hi⟩ := hsrc
  · exact step_of_command hs (decodeCommand_of_decode hd hi)
  · exact step_of_event hs (decodeEvent_of_decode hd hi)

/-- With nothing pending, a step is that of the state in which the free stimulus of this moment is pending and counted. -/
theorem step_of_pending_nil {s : State} (h : s.pending = []) :
    step s = step { s with pending := [Config.nextStimulus s.drawn], drawn := s.drawn + 1 } := by
  apply step_congr
  · rw [nextStimulus_of_pending_nil h, nextStimulus_of_pending_cons rfl]
  · rw [accept_of_pending_nil h, accept_of_pending_cons rfl, ← h]

/-- Settles O6: the CLS bit of the label decides which decoder reads it (R83, R89), and a free step is a pending one. -/
theorem stepRunsDecodedLabel : Obligations.StepRunsDecodedLabel := by
  refine ⟨fun s t r i hp hd hsrc => ?_, fun s => step_of_pending_nil⟩
  have hn : s.nextStimulus = t := nextStimulus_of_pending_cons hp
  rw [← accept_of_pending_cons hp]
  subst hn
  exact step_of_decode hd hsrc

end Sys2Proof.Machine
end

section
/-! PROOFS. What an operation does to the half of each direction and to the state the directions share, said once
(family `10_state.md`): who writes which register (R48), the roles (R22, R41), FATAL (R34) and TXLOG (R39). -/

namespace Sys2Proof.Machine

theorem dir_eq_or_eq_otherDir (d e : Dir) : d = e ∨ d = otherDir e := by cases d <;> cases e <;> simp [otherDir]

/-- What an operation that answers a next state makes of the half of direction `d`, with the conditions under which it
does. -/
inductive HalfEffect (s : State) (d : Dir) : Instr → Half → Prop
  | kept (i : Instr) : HalfEffect s d i (s.half d)
  | claimed (id : ResId) (cst : (s.half d).cst = .free) :
      HalfEffect s d (.claim d) { s.half d with id := some id, cst := .claimed }
  | configured (r : DevDir) (sl : Slot) (k : Index) (cst : (s.half d).cst = .claimed) (dir : r = devDirOf d)
      (len : k.toNat = s.params.n) (slot : sl = dmaSlot d (s.half d)) :
      HalfEffect s d (.config d r sl k) { s.half d with
        dirn := r, addr := BitVec.ofNat 17 (slotBase s.params.n sl), len := k, xidx := 0, ie := true, cst := .idle }
  | started (cst : (s.half d).cst = .idle) :
      HalfEffect s d (.start d) { s.half d with
        xidx := 0, cst := .armed, pend := s.params.rearmSetsPending || (s.half d).pend }
  | swapped (cst : Machine.configured (s.half d).cst = false) : HalfEffect s d (.swap d) (s.half d).swap
  | storedRole (a : Nat) (k : Index) (x : Word) (range : a < 2 * s.params.n) :
      HalfEffect s d (.stw d k x) { s.half d with mem := (s.half d).mem.setWord s.params.byteOrder a x }
  | storedSlot (a : Nat) (sl : Slot) (k : Index) (x : Word) (range : a < 2 * s.params.n) :
      HalfEffect s d (.sts d sl k x) { s.half d with mem := (s.half d).mem.setWord s.params.byteOrder a x }
  | receivedWord (a : Nat) (x : Word) (dir : d = .inp) (cst : (s.half d).cst = .armed) (range : a < 2 * s.params.n) :
      HalfEffect s d (.beat d x)
        { s.half d with mem := (s.half d).mem.setWord s.params.byteOrder a x }.countWord
  | sentWord (x : Word) (cst : (s.half d).cst = .armed) : HalfEffect s d (.beat d x) (s.half d).countWord
  | handled (irq : (s.half d).irq = true) :
      HalfEffect s d (.oncomp d) ((s.half d).handleCompletion s.params d)
  | wasReset (m : Memory) (wf : m.wf = true) (range : ∀ c ∈ m.cells, c.1 < 8 * s.params.n) :
      HalfEffect s d .reset (Half.afterReset m)

theorem HalfEffect.of_eq {s : State} {d : Dir} {i : Instr} {h k : Half} (e : HalfEffect s d i h) (hk : k = h) :
    HalfEffect s d i k := hk ▸ e

/-- An operation that writes the half of direction `e` only has its effect there and keeps the other half. -/
theorem HalfEffect.of_setHalf {s : State} {e : Dir} {i : Instr} {h : Half} (he : HalfEffect s e i h) (d : Dir) :
    HalfEffect s d i ((s.setHalf e h).half d) := by
  obtain rfl | rfl := dir_eq_or_eq_otherDir d e
  · exact he.of_eq (half_setHalf_same s d h)
  · exact (HalfEffect.kept i).of_eq (half_setHalf_other s e h)

/-- A word index of a slot names one of the 2N words (R61, R63). -/
theorem wordAddr_lt {n : Nat} {sl : Slot} {k : Index} (h : k.toNat < n) : wordAddr n sl k < 2 * n := by
  have := slotBase_le n sl
  unfold wordAddr
  omega

/-- Every effect of an operation, seen from the half of direction `d`. -/
theorem Effect.halfEffect {s t : State} {i : Instr} (e : Effect s i t) (d : Dir) : HalfEffect s d i (t.half d) := by
  cases e with
  | answered _ c v _ _ _ => exact (HalfEffect.kept i).of_eq (half_respond s c v d)
  | nothing _ _ _ => exact (HalfEffect.kept i).of_eq (half_quiet s d)
  | noResource e _ _ _ => exact (HalfEffect.kept _).of_eq (by simp)
  | claimed e id _ hc _ =>
    exact ((HalfEffect.claimed id hc).of_setHalf d).of_eq (by simp [half_setHalf])
  | configured e r sl k _ hc hr hk hsl =>
    exact ((HalfEffect.configured r sl k hc hr hk hsl).of_setHalf d).of_eq (by simp)
  | started e _ hc => exact ((HalfEffect.started hc).of_setHalf d).of_eq (by simp)
  | swapped e hc => exact ((HalfEffect.swapped hc).of_setHalf d).of_eq (by simp)
  | storedRole e k x hk =>
    exact ((HalfEffect.storedRole _ k x (wordAddr_lt hk)).of_setHalf d).of_eq (half_respond _ _ _ _)
  | storedSlot e sl k x hk =>
    exact ((HalfEffect.storedSlot _ sl k x (wordAddr_lt hk)).of_setHalf d).of_eq (half_respond _ _ _ _)
  | receivedWord x hc _ ha _ =>
    exact ((HalfEffect.receivedWord (d := .inp) _ x rfl hc ha).of_setHalf d).of_eq (by cases d <;> rfl)
  | sentWord x hc _ _ _ => exact ((HalfEffect.sentWord (d := .out) x hc).of_setHalf d).of_eq (by cases d <;> rfl)
  | handled e hi => exact ((HalfEffect.handled hi).of_setHalf d).of_eq (half_quiet _ _)
  | wasReset => cases d <;> exact .wasReset _ (ofImage_wf _ _) (ofImage_range _ _)

theorem exec_halfEffect {s t : State} {i : Instr} (h : exec i s = .next t) (d : Dir) :
    HalfEffect s d i (t.half d) := (exec_effect h).halfEffect d

/- The roles. -/

/-- RSEL is written by SWAP of a channel that is not configured, by the handler, and by RESET (R22, R240). -/
theorem HalfEffect.rsel_eq {s : State} {d : Dir} {i : Instr} {h : Half} (e : HalfEffect s d i h) :
    h.rsel = (s.half d).rsel ∨ (i = .swap d ∧ Machine.configured (s.half d).cst = false) ∨
      (i = .oncomp d ∧ (s.half d).irq = true) ∨ i = .reset := by
  cases e with
  | swapped hc => exact .inr (.inl ⟨rfl, hc⟩)
  | handled hi => exact .inr (.inr (.inl ⟨rfl, hi⟩))
  | wasReset m _ _ => exact .inr (.inr (.inr rfl))
  | receivedWord a x _ _ _ => exact .inl (countWord_half_rsel _)
  | sentWord x _ => exact .inl (countWord_half_rsel _)
  | kept | claimed | configured | started | storedRole | storedSlot => exact .inl rfl

/-- Settles O50: SWAP is the only other writer of RSEL, and it is refused once the channel is configured. -/
theorem rolesChangeOnlyAtCompletion : Obligations.RolesChangeOnlyAtCompletion := by
  intro i s t d h hc hne
  obtain heq | ⟨-, hfree⟩ | hon | hreset := (exec_halfEffect h d).rsel_eq
  · exact absurd heq hne
  · simp [hc] at hfree
  · exact .inl hon
  · exact .inr hreset

/- The state the directions share. -/

/-- TXLOG is written by BEAT OUT and RESET (R39, R212). -/
theorem Effect.txlog_eq {s t : State} {i : Instr} (e : Effect s i t) (hi : i ≠ .reset) :
    t.txlog = s.txlog ∨ ∃ w, t.txlog = s.txlog ++ [w] ∧ t.out.txPush = some w ∧ ∃ x, i = .beat .out x := by
  cases e with
  | sentWord x _ _ _ _ => exact .inr ⟨s.loadWord .out (beatAddr s.outHalf), by simp, rfl, x, rfl⟩
  | wasReset => exact absurd rfl hi
  | answered | nothing | noResource | claimed | configured | started | swapped | storedRole | storedSlot
  | receivedWord | handled => exact .inl (by simp)

/-- Settles O53. -/
theorem txlogOnlyGrows : Obligations.TxlogOnlyGrows := fun _ _ _ h hi => (exec_effect h).txlog_eq hi

/-- Register by register, the operations that write the half of direction `d` (R48). -/
theorem HalfEffect.writes {s : State} {d : Dir} {i : Instr} {h : Half} (e : HalfEffect s d i h) (hi : i ≠ .reset) :
    (h.rsel = (s.half d).rsel ∨ i = .swap d ∨ i = .oncomp d) ∧
    (h.pend = (s.half d).pend ∨ i = .start d ∨ i = .swap d ∨ i = .oncomp d) ∧
    (h.mem = (s.half d).mem ∨ (∃ k x, i = .stw d k x) ∨ (∃ sl k x, i = .sts d sl k x) ∨
      (d = .inp ∧ ∃ x, i = .beat d x)) ∧
    (h.cst = (s.half d).cst ∨ i = .claim d ∨ (∃ r sl k, i = .config d r sl k) ∨ i = .start d ∨
      (∃ x, i = .beat d x) ∨ i = .oncomp d) ∧
    (h.id = (s.half d).id ∨ i = .claim d) ∧
    (h.dirn = (s.half d).dirn ∧ h.len = (s.half d).len ∧ h.ie = (s.half d).ie ∨ ∃ r sl k, i = .config d r sl k) ∧
    (h.addr = (s.half d).addr ∨ (∃ r sl k, i = .config d r sl k) ∨ i = .oncomp d) ∧
    (h.xidx = (s.half d).xidx ∨ (∃ r sl k, i = .config d r sl k) ∨ i = .start d ∨ (∃ x, i = .beat d x) ∨
      i = .oncomp d) ∧
    (h.ip = (s.half d).ip ∨ (∃ x, i = .beat d x) ∨ i = .oncomp d) := by
  cases e with
  | wasReset => exact absurd rfl hi
  | handled => simp [Half.handleCompletion]
  | receivedWord a x hd _ _ => simp [hd]
  | kept | claimed | configured | started | swapped | storedRole | storedSlot | sentWord => simp

theorem HalfEffect.id_eq {s : State} {d : Dir} {i : Instr} {h : Half} (e : HalfEffect s d i h) (hi : i ≠ .reset) :
    h.id = (s.half d).id ∨ i = .claim d := by
  obtain ⟨-, -, -, -, hid, -⟩ := e.writes hi
  exact hid

/-- FATAL, POOLFREE and the ids of the channels are written by CLAIM and RESET: a CLAIM of a FREE channel sets FATAL when
the pool is empty, and else moves one id from the pool to the channel (R34, R131, R196). -/
theorem Effect.pool_cases {s t : State} {i : Instr} (e : Effect s i t) :
    ((∀ d, (t.half d).id = (s.half d).id) ∧ t.poolFree = s.poolFree ∧
      (t.fatal = s.fatal ∨ t.fatal = true ∧ ∃ d, i = .claim d ∧ (s.half d).cst = .free ∧ s.poolFree = [])) ∨
    (∃ d, ∃ id ∈ s.poolFree, i = .claim d ∧ (t.half d).id = some id ∧
      (t.half (otherDir d)).id = (s.half (otherDir d)).id ∧ t.poolFree = s.poolFree.filter (· ≠ id) ∧
      t.fatal = s.fatal) ∨
    (i = .reset ∧ (∀ d, (t.half d).id = none) ∧ t.poolFree = s.params.pool0 ∧ t.fatal = false) := by
  have kept_id (hc : ∀ d, i ≠ .claim d) (hr : i ≠ .reset) (d : Dir) : (t.half d).id = (s.half d).id :=
    ((e.halfEffect d).id_eq hr).resolve_right (hc d)
  cases e with
  | noResource d _ hc hp => exact .inl ⟨by simp, rfl, .inr ⟨rfl, d, rfl, hc, hp⟩⟩
  | claimed d id _ _ hmem => exact .inr (.inl ⟨d, id, hmem, rfl, by simp, by simp, by simp, by simp⟩)
  | wasReset => exact .inr (.inr ⟨rfl, fun d => by cases d <;> rfl, rfl, rfl⟩)
  | answered | nothing => exact .inl ⟨by simp, rfl, .inl rfl⟩
  | configured | started | swapped | handled | storedRole | storedSlot | receivedWord | sentWord =>
    exact .inl ⟨kept_id (by simp) (by simp), by simp, .inl (by simp)⟩

/-- Settles O51: of the operations that touch FATAL, one sets it and RESET clears it. -/
theorem fatalIsSticky : Obligations.FatalIsSticky := by
  intro i s t h
  obtain ⟨-, -, hf | ⟨hf, hclaim⟩⟩ | ⟨d, id, -, -, -, -, -, hf⟩ | ⟨hi, -, -, hf⟩ := (exec_effect h).pool_cases
  · exact ⟨fun hs => .inl (hf ▸ hs), fun hs ht => absurd (hf ▸ ht) (by simp [hs])⟩
  · exact ⟨fun _ => .inl hf, fun _ _ => hclaim⟩
  · exact ⟨fun hs => .inl (hf ▸ hs), fun hs ht => absurd (hf ▸ ht) (by simp [hs])⟩
  · exact ⟨fun _ => .inr hi, fun _ ht => absurd ht (by simp [hf])⟩

/-- The model's own fields but the outputs, and the parameters, are written by no operation (log 1, 6, 8, 17). -/
theorem Effect.environment_eq {s t : State} {i : Instr} (e : Effect s i t) :
    t.params = s.params ∧ t.oracle = s.oracle ∧ t.pending = s.pending ∧ t.drawn = s.drawn := by
  cases e <;> simp

/-- Settles O49: register by register, the operations whose effect on a half writes it. -/
theorem onlyListedOperationsWrite : Obligations.OnlyListedOperationsWrite := by
  intro i s t d h hi
  have e := exec_effect h
  have hpool : t.fatal = s.fatal ∧ t.poolFree = s.poolFree ∨ ∃ e, i = .claim e := by
    obtain ⟨-, hp, hf | ⟨-, d, hc, -⟩⟩ | ⟨d, id, -, hc, -⟩ | ⟨hr, -⟩ := e.pool_cases
    · exact .inl ⟨hf, hp⟩
    · exact .inr ⟨d, hc⟩
    · exact .inr ⟨d, hc⟩
    · exact absurd hr hi
  have htx : t.txlog = s.txlog ∨ ∃ x, i = .beat .out x :=
    (e.txlog_eq hi).imp_right fun ⟨_, _, _, hx⟩ => hx
  obtain ⟨hrsel, hpend, hmem, hcst, hid, hconf, haddr, hxidx, hip⟩ := (e.halfEffect d).writes hi
  exact ⟨hrsel, hpend, hmem, hcst, hid, hconf, haddr, hxidx, hip, hpool, htx, e.environment_eq⟩

end Sys2Proof.Machine
end

section
/-! PROOFS. The two directions are independent (R20): every operation of one direction commutes with replacing the half
of the other. -/

namespace Sys2Proof.Machine

/-- The outcome with `f` applied to its next state. -/
def mapNext (f : State → State) : Host.Outcome State Fault Refusal → Host.Outcome State Fault Refusal
  | .next t => .next (f t)
  | .fault r => .fault r
  | .refused r => .refused r

@[simp] theorem mapNext_next (f : State → State) (t : State) : mapNext f (.next t) = .next (f t) := rfl

theorem mapNext_ite (f : State → State) (c : Prop) [Decidable c] (a b : Host.Outcome State Fault Refusal) :
    mapNext f (if c then a else b) = if c then mapNext f a else mapNext f b := apply_ite _ _ _ _

section
variable (s : State) (d : Dir) (h : Half)

/- What an update of direction `d` does to a state whose other half was replaced. -/

@[simp] theorem half_setHalf_of_other : (s.setHalf (otherDir d) h).half d = s.half d := by cases d <;> rfl

theorem setHalf_comm (k : Half) :
    (s.setHalf (otherDir d) h).setHalf d k = (s.setHalf d k).setHalf (otherDir d) h := by cases d <;> rfl

theorem respond_setHalf (c : RespCode) (v : Word) : (s.setHalf d h).respond c v = (s.respond c v).setHalf d h := by
  cases d <;> rfl

theorem raise_setHalf (c : RespCode) : (s.setHalf d h).raise c = (s.raise c).setHalf d h := respond_setHalf s d h c 0

theorem quiet_setHalf : (s.setHalf d h).quiet = s.quiet.setHalf d h := by cases d <;> rfl

theorem loadWord_setHalf_other (a : Nat) : (s.setHalf (otherDir d) h).loadWord d a = s.loadWord d a := by
  simp [State.loadWord]

theorem storeWord_setHalf_other (a : Nat) (v : Word) :
    (s.setHalf (otherDir d) h).storeWord d a v = (s.storeWord d a v).setHalf (otherDir d) h := by
  simp [State.storeWord, setHalf_comm]

theorem loadSlot_setHalf_other (sl : Slot) (k : Index) :
    (s.setHalf (otherDir d) h).loadSlot d sl k = (s.loadSlot d sl k).setHalf (otherDir d) h := by
  unfold State.loadSlot
  simp only [setHalf_params, loadWord_setHalf_other, respond_setHalf, raise_setHalf]
  split <;> rfl

theorem storeSlot_setHalf_other (sl : Slot) (k : Index) (x : Word) :
    (s.setHalf (otherDir d) h).storeSlot d sl k x = (s.storeSlot d sl k x).setHalf (otherDir d) h := by
  unfold State.storeSlot
  simp only [setHalf_params, storeWord_setHalf_other, respond_setHalf, raise_setHalf]
  split <;> rfl

theorem moveWord_setHalf_other (x : Word) :
    (s.setHalf (otherDir d) h).moveWord d x = mapNext (·.setHalf (otherDir d) h) (s.moveWord d x) := by
  unfold State.moveWord
  rw [half_setHalf_of_other, setHalf_params, mapNext_ite, mapNext_ite]
  cases d <;> rfl

theorem execClaim_setHalf_other : execClaim d (s.setHalf (otherDir d) h) =
    mapNext (·.setHalf (otherDir d) h) (execClaim d s) := by
  unfold execClaim
  simp only [half_setHalf_of_other, setHalf_fatal, setHalf_poolFree, setHalf_oracle, mapNext_ite, raise_setHalf,
    mapNext_next]
  split
  · rfl
  · split
    · rfl
    · split <;> cases d <;> rfl

theorem execConfig_setHalf_other (r : DevDir) (sl : Slot) (k : Index) :
    execConfig d r sl k (s.setHalf (otherDir d) h) = mapNext (·.setHalf (otherDir d) h) (execConfig d r sl k s) := by
  simp only [execConfig, half_setHalf_of_other, setHalf_fatal, setHalf_params, mapNext_ite, raise_setHalf,
    mapNext_next, setHalf_comm, respond_setHalf]

theorem execStart_setHalf_other :
    execStart d (s.setHalf (otherDir d) h) = mapNext (·.setHalf (otherDir d) h) (execStart d s) := by
  simp only [execStart, half_setHalf_of_other, setHalf_fatal, setHalf_params, mapNext_ite, raise_setHalf,
    mapNext_next, setHalf_comm, respond_setHalf]

theorem execSwap_setHalf_other :
    execSwap d (s.setHalf (otherDir d) h) = mapNext (·.setHalf (otherDir d) h) (execSwap d s) := by
  simp only [execSwap, half_setHalf_of_other, mapNext_ite, raise_setHalf, mapNext_next, setHalf_comm, respond_setHalf]

theorem beatEnabled_setHalf_other : (s.setHalf (otherDir d) h).beatEnabled d = s.beatEnabled d := by
  simp [State.beatEnabled]

theorem oncompEnabled_setHalf_other : (s.setHalf (otherDir d) h).oncompEnabled d = s.oncompEnabled d := by
  simp [State.oncompEnabled]

theorem execBeat_setHalf_other (x : Word) :
    execBeat d x (s.setHalf (otherDir d) h) = mapNext (·.setHalf (otherDir d) h) (execBeat d x s) := by
  simp only [execBeat, beatEnabled_setHalf_other, mapNext_ite, mapNext_next, moveWord_setHalf_other, quiet_setHalf]

theorem execOncomp_setHalf_other :
    execOncomp d (s.setHalf (otherDir d) h) = mapNext (·.setHalf (otherDir d) h) (execOncomp d s) := by
  simp only [execOncomp, oncompEnabled_setHalf_other, half_setHalf_of_other, setHalf_params, mapNext_ite,
    mapNext_next, setHalf_comm, quiet_setHalf]

end

/-- An operation of direction `d` does the same whatever stands in the other half, and hands that half on. -/
theorem exec_setHalf_other {i : Instr} {d : Dir} (hd : instrDir i = some d) (s : State) (h : Half) :
    exec i (s.setHalf (otherDir d) h) = mapNext (·.setHalf (otherDir d) h) (exec i s) := by
  cases i with
  | nop | rdints | reset => cases hd
  | claim => cases hd; exact execClaim_setHalf_other s d h
  | config _ r sl k => cases hd; exact execConfig_setHalf_other s d h r sl k
  | start => cases hd; exact execStart_setHalf_other s d h
  | swap => cases hd; exact execSwap_setHalf_other s d h
  | beat _ x => cases hd; exact execBeat_setHalf_other s d h x
  | oncomp => cases hd; exact execOncomp_setHalf_other s d h
  | ldr | lds =>
    cases hd
    simp only [exec, execLdr, execLds, half_setHalf_of_other, loadSlot_setHalf_other, mapNext_next]
  | stw | sts =>
    cases hd
    simp only [exec, execStw, execSts, half_setHalf_of_other, storeSlot_setHalf_other, mapNext_next]
  | rdptr | wrptr | rdstat | rdaddr | rdlen =>
    cases hd
    simp only [exec, execRdptr, execWrptr, execRdstat, execRdaddr, execRdlen, half_setHalf_of_other, setHalf_params,
      setHalf_fatal, respond_setHalf, mapNext_next]

/-- Settles O47: replacing the other half by itself shows that it is kept. -/
theorem directionsAreIndependent : Obligations.DirectionsAreIndependent := by
  intro i s t d h hd ht
  have handed_on (k : Half) : exec i (s.setHalf (otherDir d) k) = .next (t.setHalf (otherDir d) k) := by
    rw [exec_setHalf_other hd, ht, mapNext_next]
  have hkeep : t = t.setHalf (otherDir d) (s.half (otherDir d)) := by
    have hself := handed_on (s.half (otherDir d))
    rw [setHalf_half, ht] at hself
    exact Host.Outcome.next.inj hself
  exact ⟨by rw [hkeep, half_setHalf_same], handed_on h⟩

end Sys2Proof.Machine
end

section
/-! PROOFS. The invariants R29 and R42 to R47: what keeps them, operation by operation, and what they give a BEAT and a
completion handler. -/

namespace Sys2Proof.Machine

/- The pool of free ids, listed in rising order (log 16). -/

theorem idsRising_iff_pairwise (l : List ResId) : idsRising l = true ↔ l.Pairwise (· < ·) := by
  rw [← List.isChain_iff_pairwise]
  induction l with
  | nil => simp [idsRising]
  | cons x r ih =>
    cases r with
    | nil => simp [idsRising]
    | cons y r => rw [idsRising, List.isChain_cons_cons, Bool.and_eq_true, decide_eq_true_eq, ih]

theorem idsRising_filter {l : List ResId} (f : ResId → Bool) (h : idsRising l = true) :
    idsRising (l.filter f) = true :=
  (idsRising_iff_pairwise _).mpr (((idsRising_iff_pairwise l).mp h).filter f)

theorem Params.wf_iff (p : Params) : p.wf = true ↔ (1 ≤ p.n ∧ p.n ≤ 65535) ∧ idsRising p.pool0 = true := by
  simp [Params.wf]

/- One half. A channel that is not configured has nothing to keep but its base address, its id and its memory. -/

theorem Half.inv_of_unconfigured {p : Params} {d : Dir} {h : Half} (hc : configured h.cst = false) (hip : h.ip = false)
    (hie : h.ie = false) (haddr : h.addr.toNat = 0 ∨ h.addr.toNat = p.n) (hid : h.id = none ↔ h.cst = .free)
    (hwf : h.mem.wf = true) (hrange : ∀ c ∈ h.mem.cells, c.1 < 8 * p.n) : h.Inv p d where
  ip_iff := by rw [hip]; cases hcst : h.cst <;> simp_all [configured]
  ie_iff := by simp [hie, hc]
  addr_dma := by simp [hc]
  addr_range := haddr
  len_eq := by simp [hc]
  xidx_idle e := by simp [e, configured] at hc
  xidx_armed e := by simp [e, configured] at hc
  xidx_done e := by simp [e, configured] at hc
  dirn_eq := by simp [hc]
  pend_due _ e := by rcases e with e | e <;> simp [e, configured] at hc
  id_iff := hid
  mem_wf := hwf
  mem_range := hrange

/-- A channel that is not configured raises no interrupt (R42, R43). -/
theorem Half.Inv.quiet_of_unconfigured {p : Params} {d : Dir} {h : Half} (hi : h.Inv p d)
    (hc : configured h.cst = false) : h.ip = false ∧ h.ie = false := by
  constructor
  · rw [← Bool.not_eq_true, hi.ip_iff]
    intro e
    simp [e, configured] at hc
  · rw [← Bool.not_eq_true, hi.ie_iff]
    simp [hc]

/-- What CONFIG binds and every state of a configured channel keeps (R29, R43 to R45). -/
structure Half.Bound (p : Params) (d : Dir) (h : Half) : Prop where
  ie : h.ie = true
  addr : h.addr.toNat = slotBase p.n (dmaSlot d h)
  len : h.len.toNat = p.n
  dirn : h.dirn = devDirOf d
  owner : h.id ≠ none
  mem_wf : h.mem.wf = true
  mem_range : ∀ c ∈ h.mem.cells, c.1 < 8 * p.n

theorem Half.Inv.bound {p : Params} {d : Dir} {h : Half} (hi : h.Inv p d) (hc : configured h.cst = true) :
    h.Bound p d where
  ie := hi.ie_iff.mpr hc
  addr := hi.addr_dma hc
  len := hi.len_eq hc
  dirn := hi.dirn_eq hc
  owner e := by simp [hi.id_iff.mp e, configured] at hc
  mem_wf := hi.mem_wf
  mem_range := hi.mem_range

/-- The base of either slot is 0 or N. -/
theorem slotBase_eq_or (n : Nat) (sl : Slot) : slotBase n sl = 0 ∨ slotBase n sl = n := by cases sl <;> simp

/-- A bound channel meets the invariants when IP, XIDX and PEND are what its state asks for. -/
theorem Half.Bound.inv {p : Params} {d : Dir} {h : Half} (hb : h.Bound p d) (hc : configured h.cst = true)
    (hip : h.ip = true ↔ h.cst = .done) (hidle : h.cst = .idle → h.xidx = 0)
    (harmed : h.cst = .armed → h.xidx.toNat < p.n) (hdone : h.cst = .done → h.xidx.toNat = p.n)
    (hpend : p.rearmSetsPending = true → h.cst = .armed ∨ h.cst = .done → h.pend = true) : h.Inv p d where
  ip_iff := hip
  ie_iff := by simp [hb.ie, hc]
  addr_dma _ := hb.addr
  addr_range := hb.addr ▸ slotBase_eq_or p.n (dmaSlot d h)
  len_eq _ := hb.len
  xidx_idle := hidle
  xidx_armed := harmed
  xidx_done := hdone
  dirn_eq _ := hb.dirn
  pend_due := hpend
  id_iff := ⟨fun e => absurd e hb.owner, fun e => by simp [e, configured] at hc⟩
  mem_wf := hb.mem_wf
  mem_range := hb.mem_range

/-- A channel that is armed with XIDX within the block. -/
theorem Half.Bound.inv_armed {p : Params} {d : Dir} {h : Half} (hb : h.Bound p d) (hc : h.cst = .armed)
    (hip : h.ip = false) (hx : h.xidx.toNat < p.n) (hpend : p.rearmSetsPending = true → h.pend = true) :
    h.Inv p d :=
  hb.inv (by simp [hc, configured]) (by simp [hc, hip]) (by simp [hc]) (fun _ => hx) (by simp [hc])
    (fun hr _ => hpend hr)

/- What each operation keeps of one half. -/

section
variable {p : Params} {d : Dir} {h : Half}

theorem Half.inv_afterReset {m : Memory} (hwf : m.wf = true) (hrange : ∀ c ∈ m.cells, c.1 < 8 * p.n) :
    (Half.afterReset m).Inv p d :=
  Half.inv_of_unconfigured rfl rfl rfl (.inl rfl) (iff_of_true rfl rfl) hwf hrange

theorem Half.Inv.claim (hi : h.Inv p d) (hc : h.cst = .free) (id : ResId) :
    { h with id := some id, cst := .claimed : Half }.Inv p d := by
  obtain ⟨hip, hie⟩ := hi.quiet_of_unconfigured (by simp [hc, configured])
  exact Half.inv_of_unconfigured rfl hip hie hi.addr_range (by simp) hi.mem_wf hi.mem_range

theorem Half.Inv.swap (hi : h.Inv p d) (hc : configured h.cst = false) : h.swap.Inv p d := by
  obtain ⟨hip, hie⟩ := hi.quiet_of_unconfigured hc
  exact Half.inv_of_unconfigured (by simpa) (by simpa) (by simpa) (by simpa using hi.addr_range)
    (by simpa using hi.id_iff) (by simpa using hi.mem_wf) (by simpa using hi.mem_range)

theorem Half.Inv.config (hp : p.wf = true) (hi : h.Inv p d) (hc : h.cst = .claimed) {k : Index} (hk : k.toNat = p.n) :
    { h with dirn := devDirOf d, addr := BitVec.ofNat 17 (slotBase p.n (dmaSlot d h)), len := k, xidx := 0,
             ie := true, cst := .idle : Half }.Inv p d := by
  obtain ⟨hip, -⟩ := hi.quiet_of_unconfigured (by simp [hc, configured])
  have hb : Half.Bound p d { h with
      dirn := devDirOf d, addr := BitVec.ofNat 17 (slotBase p.n (dmaSlot d h)), len := k, xidx := 0, ie := true,
      cst := .idle } :=
    { ie := rfl
      addr := (slotBase_toNat hp _).trans (congrArg _ (dmaSlot_congr rfl))
      len := hk
      dirn := rfl
      owner := fun e => by simpa [hc] using hi.id_iff.mp e
      mem_wf := hi.mem_wf
      mem_range := hi.mem_range }
  exact hb.inv rfl (by simp [hip]) (fun _ => rfl) (by simp) (by simp) (by simp)

theorem Half.Inv.start (hp : p.wf = true) (hi : h.Inv p d) (hc : h.cst = .idle) :
    { h with xidx := 0, cst := .armed, pend := p.rearmSetsPending || h.pend : Half }.Inv p d := by
  have hb := hi.bound (by simp [hc, configured])
  have hip : h.ip = false := by simp [← Bool.not_eq_true, hi.ip_iff, hc]
  have hn := ((Params.wf_iff p).mp hp).1.1
  exact Half.Bound.inv_armed { hb with addr := hb.addr.trans (congrArg _ (dmaSlot_congr rfl)) } rfl hip hn
    (fun hr => by simp [hr])

theorem Half.Inv.handleCompletion (hp : p.wf = true) (hi : h.Inv p d) (hirq : h.irq = true) :
    (h.handleCompletion p d).Inv p d := by
  obtain ⟨hip, hie⟩ : h.ip = true ∧ h.ie = true := by simpa [Half.irq] using hirq
  have hb := hi.bound (hi.ie_iff.mp hie)
  have hn := ((Params.wf_iff p).mp hp).1.1
  have hb' : (h.handleCompletion p d).Bound p d :=
    { ie := by simpa [Half.handleCompletion] using hie
      addr := (slotBase_toNat hp _).trans (congrArg _ (dmaSlot_congr rfl))
      len := by simpa [Half.handleCompletion] using hb.len
      dirn := by simpa [Half.handleCompletion] using hb.dirn
      owner := by simpa [Half.handleCompletion] using hb.owner
      mem_wf := by simpa [Half.handleCompletion] using hb.mem_wf
      mem_range := by simpa [Half.handleCompletion] using hb.mem_range }
  exact hb'.inv_armed rfl (by simp [Half.handleCompletion]) hn (fun hr => by simp [Half.handleCompletion, hr])

/-- A store of one of the 2N words keeps the invariants (R61). -/
theorem Half.Inv.setWord (hi : h.Inv p d) (o : ByteOrder) {a : Nat} (x : Word) (ha : a < 2 * p.n) :
    { h with mem := h.mem.setWord o a x : Half }.Inv p d :=
  { hi with
    addr_dma := fun hc => (hi.addr_dma hc).trans (congrArg _ (dmaSlot_congr rfl))
    mem_wf := setWord_wf _ _ _ _ hi.mem_wf
    mem_range := fun c hc => by
      obtain hc | hc := mem_setWord_cells hc
      · exact hi.mem_range c hc
      · omega }

/-- An armed channel counts a word: XIDX stays within the block, or the block is complete (R45, R134). -/
theorem Half.Inv.countWord (hp : p.wf = true) (hi : h.Inv p d) (hc : h.cst = .armed) : h.countWord.Inv p d := by
  have hconf : configured h.cst = true := by simp [hc, configured]
  have hb := hi.bound hconf
  have hn := ((Params.wf_iff p).mp hp).1.2
  have hlt := hi.xidx_armed hc
  have hx : (h.xidx + 1).toNat = h.xidx.toNat + 1 := by
    have hone : (1 : BitVec 16).toNat = 1 := rfl
    rw [BitVec.toNat_add, hone, Nat.mod_eq_of_lt (by omega)]
  have hip : h.ip = false := by simp [← Bool.not_eq_true, hi.ip_iff, hc]
  have hpend : p.rearmSetsPending = true → h.pend = true := fun hr => hi.pend_due hr (.inl hc)
  have haddr {k : Half} (e : h.rsel = k.rsel) : h.addr.toNat = slotBase p.n (dmaSlot d k) :=
    hb.addr.trans (congrArg _ (dmaSlot_congr e))
  unfold Half.countWord
  split
  · next hlast =>
    have hfull : (h.xidx + 1).toNat = p.n := by rw [hlast, hb.len]
    exact Half.Bound.inv { hb with addr := haddr rfl } rfl (by simp) (by simp) (by simp) (fun _ => hfull)
      (fun hr _ => hpend hr)
  · next hmore =>
    have hne : h.xidx.toNat + 1 ≠ p.n := fun e => hmore (BitVec.eq_of_toNat_eq (by rw [hx, e, hb.len]))
    exact Half.Bound.inv_armed { hb with addr := haddr rfl } hc hip (by dsimp only; omega) hpend

end

/-- Every effect of an operation on a half keeps its invariants. -/
theorem HalfEffect.keeps_inv {s : State} {d : Dir} {i : Instr} {k : Half} (e : HalfEffect s d i k)
    (hp : s.params.wf = true) (hi : (s.half d).Inv s.params d) : k.Inv s.params d := by
  cases e with
  | kept => exact hi
  | claimed id hc => exact hi.claim hc id
  | configured r sl k hc hr hk hsl => subst hr hsl; exact hi.config hp hc hk
  | started hc => exact hi.start hp hc
  | swapped hc => exact hi.swap hc
  | storedRole a k x ha => exact hi.setWord _ x ha
  | storedSlot a sl k x ha => exact hi.setWord _ x ha
  | receivedWord a x _ hc ha => exact (hi.setWord _ x ha).countWord hp hc
  | sentWord x hc => exact hi.countWord hp hc
  | handled hirq => exact hi.handleCompletion hp hirq
  | wasReset m hwf hrange => exact Half.inv_afterReset hwf hrange

/- The whole state. -/

/-- The invariants read the parameters, the halves and the pool only. -/
theorem State.Inv.congr {s t : State} (hs : s.Inv) (hp : t.params = s.params) (hh : ∀ d, t.half d = s.half d)
    (hpool : t.poolFree = s.poolFree) : t.Inv where
  params_wf := hp ▸ hs.params_wf
  half d := by rw [hp, hh]; exact hs.half d
  pool_rising := hpool ▸ hs.pool_rising
  id_owned d := by rw [hh, hpool]; exact hs.id_owned d
  ids_differ id := by rw [← half_inp, ← half_out, hh, hh]; exact hs.ids_differ id

/-- R46: the pool and the ids the two channels own share no id. -/
structure PoolInv (pool : List ResId) (ids : Dir → Option ResId) : Prop where
  rising : idsRising pool = true
  owned : ∀ d id, ids d = some id → id ∉ pool
  differ : ∀ d id, ids d = some id → ids (otherDir d) ≠ some id

theorem State.Inv.pool {s : State} (hs : s.Inv) : PoolInv s.poolFree fun d => (s.half d).id where
  rising := hs.pool_rising
  owned := hs.id_owned
  differ d id hd ho := by
    cases d with
    | inp => exact hs.ids_differ id hd ho
    | out => exact hs.ids_differ id ho hd

/-- A free id may move from the pool to one channel (R131). -/
theorem PoolInv.claim {pool : List ResId} {ids ids' : Dir → Option ResId} (h : PoolInv pool ids) {d : Dir} {id : ResId}
    (hmem : id ∈ pool) (hd : ids' d = some id) (ho : ids' (otherDir d) = ids (otherDir d)) :
    PoolInv (pool.filter (· ≠ id)) ids' := by
  have hother : ids (otherDir d) ≠ some id := fun e => h.owned _ _ e hmem
  refine ⟨idsRising_filter _ h.rising, fun e k hk hpool => ?_, fun e k hk hk' => ?_⟩
  · obtain ⟨hpool, hne⟩ : k ∈ pool ∧ k ≠ id := by simpa using hpool
    obtain rfl | rfl := dir_eq_or_eq_otherDir e d
    · exact hne (Option.some.inj (hk.symm.trans hd))
    · exact h.owned _ k (ho ▸ hk) hpool
  · obtain rfl | rfl := dir_eq_or_eq_otherDir e d
    · exact hother (by rw [← ho, hk', ← hk, hd])
    · rw [otherDir_otherDir] at hk'
      exact hother (by rw [← ho, hk, ← hk', hd])

theorem Effect.keeps_pool {s t : State} {i : Instr} (e : Effect s i t) (hs : s.Inv) :
    PoolInv t.poolFree fun d => (t.half d).id := by
  obtain ⟨hid, hpool, -⟩ | ⟨d, id, hmem, -, hd, ho, hpool, -⟩ | ⟨-, hid, hpool, -⟩ := e.pool_cases
  · simpa only [hid, hpool] using hs.pool
  · rw [hpool]
    exact hs.pool.claim hmem hd ho
  · simp only [hid, hpool]
    exact ⟨((Params.wf_iff _).mp hs.params_wf).2, by simp, by simp⟩

/-- Every operation keeps the invariants (R29, R42 to R47). -/
theorem exec_keeps_inv {s t : State} {i : Instr} (hs : s.Inv) (h : exec i s = .next t) : t.Inv := by
  have e := exec_effect h
  obtain ⟨hparams, -⟩ := e.environment_eq
  obtain ⟨hrising, howned, hdiffer⟩ := e.keeps_pool hs
  exact
    { params_wf := hparams ▸ hs.params_wf
      half := fun d => hparams ▸ (e.halfEffect d).keeps_inv hs.params_wf (hs.half d)
      pool_rising := hrising
      id_owned := howned
      ids_differ := hdiffer .inp }

theorem State.Inv.accept {s : State} (hs : s.Inv) : s.accept.Inv :=
  hs.congr (accept_params s) (half_accept s) (accept_poolFree s)

/-- Settles O56: a step is an operation of the accepted state, or an answer that changes only the outputs. -/
theorem stepKeepsInvariants : Obligations.StepKeepsInvariants := by
  intro s t hs h
  obtain ⟨i, -, -, hstep⟩ | ⟨-, -, hstep⟩ | ⟨i, -, -, hstep⟩ | ⟨-, -, hstep⟩ := step_cases s <;> rw [hstep] at h
  · exact exec_keeps_inv hs.accept h
  · cases h
    exact hs.accept.congr (raise_params _ _) (half_raise _ _) (raise_poolFree _ _)
  · exact exec_keeps_inv hs.accept h
  · cases h

/-- Settles O55: after reset both channels are FREE with an empty memory, and POOL0 is in rising order. -/
theorem resetMeetsInvariants : Obligations.ResetMeetsInvariants where
  params_wf := by decide
  half d := by cases d <;> exact Half.inv_afterReset rfl (by simp)
  pool_rising := by decide
  id_owned d id h := by cases d <;> cases h
  ids_differ id h := by cases h

/- What the invariants give a BEAT (R44, R45). -/

/-- An armed channel moves a word of its own slot (R44, R63, R134). -/
theorem Half.Inv.beatAddr_eq {p : Params} {d : Dir} {h : Half} (hi : h.Inv p d) (hc : h.cst = .armed) :
    beatAddr h = slotBase p.n (dmaSlot d h) + h.xidx.toNat ∧ h.xidx.toNat < p.n :=
  ⟨congrArg (· + _) (hi.addr_dma (by simp [hc, configured])), hi.xidx_armed hc⟩

/-- An operation that faults is an enabled BEAT whose word move faults. -/
theorem exec_fault {i : Instr} {s : State} {f : Fault} (h : exec i s = .fault f) :
    ∃ d x, i = .beat d x ∧ (s.half d).cst = .armed ∧ s.moveWord d x = .fault f := by
  cases i with
  | beat d x =>
    simp only [exec, execBeat] at h
    split at h
    · next he =>
      obtain ⟨hc, -⟩ : (s.half d).cst = .armed ∧ handshake s.oracle d = true := by simpa [State.beatEnabled] using he
      exact ⟨d, x, rfl, hc, h⟩
    · cases h
  | claim | config | start =>
    simp only [exec, execClaim, execConfig, execStart] at h
    repeat' split at h
    all_goals cases h
  | swap | oncomp =>
    simp only [exec, execSwap, execOncomp] at h
    split at h <;> cases h
  | nop | rdptr | wrptr | ldr | stw | lds | sts | rdints | rdstat | rdaddr | rdlen | reset => cases h

/-- In a state that meets the invariants the guards of a word move hold (R45, R63). -/
theorem exec_ne_fault {s : State} (hs : s.Inv) (i : Instr) (f : Fault) : exec i s ≠ .fault f := by
  intro h
  obtain ⟨d, x, -, hc, hmove⟩ := exec_fault h
  obtain ⟨haddr, hx⟩ := (hs.half d).beatAddr_eq hc
  have hbase := slotBase_le s.params.n (dmaSlot d (s.half d))
  have hn := ((Params.wf_iff _).mp hs.params_wf).1.2
  obtain ⟨hbad, -⟩ | ⟨-, hbad, -⟩ | ⟨-, -, ⟨-, e⟩ | ⟨-, e⟩⟩ := moveWord_cases s d x
  · omega
  · omega
  · cases e.symm.trans hmove
  · cases e.symm.trans hmove

/-- Settles O57. -/
theorem stepNeverFaults : Obligations.StepNeverFaults := by
  intro s f hs h
  obtain ⟨i, -, -, hstep⟩ | ⟨-, -, hstep⟩ | ⟨i, -, -, hstep⟩ | ⟨-, -, hstep⟩ := step_cases s <;> rw [hstep] at h
  · exact exec_ne_fault hs.accept i f h
  · cases h
  · exact exec_ne_fault hs.accept i f h
  · cases h

/-- A word of one slot is not a word of the other (R61). -/
theorem wordAddr_otherSlot_ne {n x : Nat} (sl : Slot) {i : Index} (hi : i.toNat < n) (hx : x < n) :
    wordAddr n (otherSlot sl) i ≠ slotBase n sl + x := by
  cases sl <;> simp only [wordAddr, otherSlot, slotBase_a, slotBase_b] <;> omega

/-- A direction's words are as before when its memory is, and BYTE_ORDER. -/
theorem loadWord_congr {s t : State} {d : Dir} (hm : (t.half d).mem = (s.half d).mem) (hp : t.params = s.params)
    (a : Nat) : t.loadWord d a = s.loadWord d a := by
  unfold State.loadWord
  rw [hm, hp]

theorem countWord_mem (s : State) (d : Dir) : ((s.countWord d).half d).mem = (s.half d).mem := by simp

/-- Settles O58: the one BEAT that stores, BEAT IN, stores in the channel's own slot. -/
theorem beatStaysInChannelSlot : Obligations.BeatStaysInChannelSlot := by
  intro s t d x i hs h hi
  generalize hb : Instr.beat d x = j at h
  cases exec_effect h with
  | answered _ c v host _ _ => simp [← hb, Instr.isEvent] at host
  | nothing => exact loadWord_congr (by simp) rfl _
  | receivedWord y hc _ _ _ =>
    cases hb
    obtain ⟨haddr, hx⟩ := (hs.half .inp).beatAddr_eq hc
    have hne : wordAddr s.params.n (otherSlot (dmaSlot .inp s.inHalf)) i ≠ beatAddr s.inHalf := by
      rw [← half_inp, haddr]
      exact wordAddr_otherSlot_ne _ hi hx
    exact (loadWord_congr (s := s.storeWord .inp (beatAddr s.inHalf) x) (countWord_mem _ .inp) (by simp) _).trans
      (loadWord_storeWord_ne s .inp x hne)
  | sentWord y hc _ _ _ =>
    cases hb
    exact loadWord_congr (countWord_mem s .out) (by simp) _
  | noResource | claimed | configured | started | swapped | storedRole | storedSlot | handled | wasReset => cases hb

/- What the invariants give a completion handler (R47, R135). -/

theorem slotBase_add_otherSlot (n : Nat) (sl : Slot) : slotBase n (otherSlot sl) + slotBase n sl = n := by
  cases sl <;> simp [otherSlot]

/-- Settles O36: PEND is due in DONE, so the handler exchanges the roles, and the arm moves ADDR to the other base. -/
theorem everyCompletionSwapsOnce : Obligations.EveryCompletionSwapsOnce := by
  intro s d hs hr hc
  have hi := hs.half d
  have hconf : configured (s.half d).cst = true := by simp [hc, configured]
  have hirq : (s.half d).irq = true := by simp [Half.irq, hi.ip_iff.mpr hc, hi.ie_iff.mpr hconf]
  have hpend : (s.half d).pend = true := hi.pend_due hr (.inr hc)
  have hrsel : ((s.half d).handleCompletion s.params d).rsel = otherSlot (s.half d).rsel := by
    simp [Half.handleCompletion, hpend]
  have hi' := hi.handleCompletion hs.params_wf hirq
  have haddr : ((s.half d).handleCompletion s.params d).addr.toNat + (s.half d).addr.toNat = s.params.n := by
    rw [hi'.addr_dma rfl, hi.addr_dma hconf, dmaSlot_exchange hrsel, slotBase_add_otherSlot]
  have hn := ((Params.wf_iff _).mp hs.params_wf).1.1
  have hrange := hi.addr_range
  refine ⟨(s.setHalf d ((s.half d).handleCompletion s.params d)).quiet, ?_, ?_⟩
  · simp [exec, execOncomp, State.oncompEnabled, hirq]
  · simp only [half_quiet, half_setHalf_same, reading_eq, writing_eq, hrsel, otherSlot_otherSlot]
    refine ⟨trivial, trivial, haddr, fun e => ?_, rfl, rfl, ?_, ?_⟩
    · rw [e] at haddr
      omega
    · simp [Half.irq, Half.handleCompletion]
    · simp [Half.handleCompletion, hr]

end Sys2Proof.Machine
end

section
/-! PROOFS. Single facts of the registers: the codes of the tables (R27, R190), the two pointers (R41), and what RESET and
the state after reset hold (R40, R176, R230). -/

namespace Sys2Proof.Machine

/-- Settles O8. -/
theorem codesOfTheTables : Obligations.CodesOfTheTables := by
  have hcode (c : RespCode) : c.code.toNat < 6 := by cases c <;> decide
  exact ⟨rfl, rfl, rfl, rfl, rfl, rfl, hcode, rfl, rfl, rfl, rfl, rfl⟩

/- The two pointers. -/

/-- Under the range of N a slot's base is a word of `rdata` (R102, R103). -/
theorem slotBase_word_toNat {p : Params} (h : p.wf = true) (sl : Slot) :
    (BitVec.ofNat 32 (slotBase p.n sl)).toNat = slotBase p.n sl := by
  have hle := slotBase_le p.n sl
  obtain ⟨⟨-, hn⟩, -⟩ := (Params.wf_iff p).mp h
  rw [BitVec.toNat_ofNat]
  omega

/-- Settles O16: the two pointers are the bases of the two slots, and N is not 0. -/
theorem pointersNeverEqual : Obligations.PointersNeverEqual := by
  refine fun s d => ⟨by simp, fun hp => ⟨_, _, rfl, rfl, ?_⟩⟩
  obtain ⟨⟨hn, -⟩, -⟩ := (Params.wf_iff _).mp hp
  have hr := slotBase_word_toNat hp (s.half d).reading
  have hw := slotBase_word_toNat hp (s.half d).writing
  have hbases : slotBase s.params.n (s.half d).reading = 0 ∧ slotBase s.params.n (s.half d).writing = s.params.n ∨
      slotBase s.params.n (s.half d).reading = s.params.n ∧ slotBase s.params.n (s.half d).writing = 0 := by
    rw [reading_eq, writing_eq]
    cases (s.half d).rsel with
    | a => exact .inl ⟨rfl, rfl⟩
    | b => exact .inr ⟨rfl, rfl⟩
  refine ⟨fun e => ?_, ?_⟩
  · have := congrArg BitVec.toNat e
    omega
  · rw [hr, hw]
    exact hbases

/- Reset. -/

/-- Settles O42. -/
theorem resetRestoresResetValues : Obligations.ResetRestoresResetValues := fun s =>
  ⟨Memory.ofImage s.params.n s.oracle.slotsIn, Memory.ofImage s.params.n s.oracle.slotsOut, ofImage_wf _ _,
    ofImage_wf _ _, rfl⟩

theorem cellsPush_of_ne_zero {k : Nat} {v : BitVec 8} (h : v ≠ 0) (r : List Host.Cell) : cellsPush k v r = (k, v) :: r :=
  if_neg h

/-- A cell stored below every listed address becomes the first. -/
theorem cellsSet_of_lt {c : Host.Cell} {r : List Host.Cell} (hc : c.2 ≠ 0) (hlt : ∀ e ∈ r, c.1 < e.1) :
    cellsSet r c.1 c.2 = c :: r := by
  cases r with
  | nil => exact cellsPush_of_ne_zero hc []
  | cons e r => rw [cellsSet, if_pos (hlt e List.mem_cons_self), cellsPush_of_ne_zero hc]

/-- The image of a slot memory's own cells is that memory. -/
theorem ofImage_cells {n : Nat} {r : List Host.Cell} (hwf : cellsCanonical r = true) (hrange : ∀ c ∈ r, c.1 < 8 * n) :
    Memory.ofImage n r = ⟨r⟩ := by
  induction r with
  | nil => rfl
  | cons c r ih =>
    obtain ⟨hc, hlt, hr⟩ := (cellsCanonical_cons c r).mp hwf
    rw [Memory.ofImage, if_pos (hrange c List.mem_cons_self), ih hr fun e he => hrange e (List.mem_cons_of_mem _ he),
      Memory.setByte, cellsSet_of_lt hc hlt]

/-- Settles O43: the oracle answers the cells of the two memories. -/
theorem slotContentsAfterResetAreFree : Obligations.SlotContentsAfterResetAreFree := by
  intro s mi mo hi ho hir hor
  exact ⟨{ s.oracle with slotsIn := mi.cells, slotsOut := mo.cells }, _, rfl, ofImage_cells hi hir, ofImage_cells ho hor⟩

/-- Settles O44: a FREE channel with no interrupt pending enables nothing. -/
theorem resetStateRegisters : Obligations.ResetStateRegisters := by
  have registers (d : Dir) : State.reset.half d = Half.afterReset ⟨[]⟩ := by cases d <;> rfl
  refine ⟨fun d => ?_, rfl, rfl, rfl, fun d => ⟨?_, fun o => ?_⟩⟩
  · rw [registers]
    exact ⟨rfl, rfl, rfl, rfl, rfl, rfl, rfl, rfl, rfl, rfl⟩
  · rw [State.oncompEnabled, registers]
    rfl
  · rw [State.beatEnabled, half_mk State.reset, registers]
    rfl

end Sys2Proof.Machine
end

section
/-! PROOFS. Slot memory (family `20_memory.md`): a load returns the last word stored (R70), and the model's own stops
(R63). -/

namespace Sys2Proof.Machine

/- A store and a load of a slot whose index is in range (R65). -/

theorem exec_sts_of_lt {s : State} {i : Index} (h : i.toNat < s.params.n) (d : Dir) (sl : Slot) (x : Word) :
    exec (.sts d sl i x) s = .next ((s.storeWord d (wordAddr s.params.n sl i) x).respond .ok 0) :=
  congrArg _ ((storeSlot_cases s d sl i x).resolve_left fun hge => Nat.not_lt.mpr hge.1 h).2

theorem exec_lds_of_lt {s : State} {n : Nat} {i : Index} (hn : s.params.n = n) (h : i.toNat < n) (d : Dir) (sl : Slot) :
    exec (.lds d sl i) s = .next (s.respond .ok (s.loadWord d (wordAddr n sl i))) := by
  subst hn
  exact congrArg _ ((loadSlot_cases s d sl i).resolve_left fun hge => Nat.not_lt.mpr hge.1 h).2

/-- Different words of a direction have different addresses (R61, R63). -/
theorem wordAddr_inj {n : Nat} {sl sl' : Slot} {i j : Index} (hi : i.toNat < n) (hj : j.toNat < n) :
    wordAddr n sl i = wordAddr n sl' j ↔ sl = sl' ∧ i = j := by
  rw [← BitVec.toNat_inj]
  cases sl <;> cases sl' <;> simp [wordAddr] <;> omega

/-- A load after a store of the same direction reads the stored word at its address, and elsewhere what stood there. -/
theorem loadWord_storeWord {s : State} {d : Dir} (h : (s.half d).mem.wf = true) (a b : Nat) (v : Word) :
    (s.storeWord d a v).loadWord d b = if b = a then v else s.loadWord d b := by
  split
  · next hab => rw [hab, loadWord_storeWord_same s d a v h]
  · next hab => exact loadWord_storeWord_ne s d v hab

/-- A response changes no slot word. -/
@[simp] theorem respond_loadWord (s : State) (c : RespCode) (v : Word) (d : Dir) (a : Nat) :
    (s.respond c v).loadWord d a = s.loadWord d a := by
  unfold State.loadWord
  rw [half_respond, respond_params]

/-- Settles O24: the loaded word is the stored one exactly when the two addresses are equal. -/
theorem storeThenLoad : Obligations.StoreThenLoad := by
  intro s d sl sl' i j x hwf hi hj
  refine ⟨_, exec_sts_of_lt hi d sl x, ?_⟩
  rw [exec_lds_of_lt (by simp) hj, respond_loadWord, loadWord_storeWord hwf]
  simp only [wordAddr_inj hj hi]
  rfl

/- Where the model stops. -/

theorem beatEnabled_iff (s : State) (d : Dir) :
    s.beatEnabled d = true ↔ (s.half d).cst = .armed ∧ handshake s.oracle d = true := by
  simp [State.beatEnabled]

/-- An enabled BEAT is its word move (R134). -/
theorem exec_beat_of_enabled {s : State} {d : Dir} (h : s.beatEnabled d = true) (x : Word) :
    exec (.beat d x) s = s.moveWord d x := if_pos h

/-- A word that does not decode, or has CLS = 0, names no event (R86, R89). -/
theorem decodeEvent_eq_none {l x : Word} (h : decode l x = none ∨ l.getLsbD 31 = false) : decodeEvent l x = none := by
  unfold decodeEvent isEventWord
  obtain hd | hcls := h
  · rw [hd, ite_self]
  · rw [hcls]
    rfl

theorem step_of_no_event {s : State} (hs : s.nextStimulus.source = .hardware)
    (hd : decodeEvent s.nextStimulus.label s.nextStimulus.data = none) :
    step s = .refused (.notAnEvent s.nextStimulus.label) := by
  simp only [step, hs, hd]

/-- Settles O32: the two guards of the word move, and the one label that is no event. -/
theorem modelStops : Obligations.ModelStops := by
  refine ⟨fun s d x hc hv => ?_, fun s t r hp hs hd => ?_⟩
  · rw [exec_beat_of_enabled ((beatEnabled_iff s d).mpr ⟨hc, hv⟩)]
    obtain ⟨haddr, e⟩ | ⟨haddr, hidx, e⟩ | ⟨haddr, hidx, -⟩ := moveWord_cases s d x
    · exact ⟨fun _ => e, fun hlt => absurd haddr (Nat.not_le.mpr hlt)⟩
    · exact ⟨fun hge => absurd haddr (Nat.not_lt.mpr hge), fun _ _ => e⟩
    · exact ⟨fun hge => absurd haddr (Nat.not_lt.mpr hge), fun _ hge => absurd hidx (Nat.not_lt.mpr hge)⟩
  · obtain rfl : s.nextStimulus = t := nextStimulus_of_pending_cons hp
    exact step_of_no_event hs (decodeEvent_eq_none hd)

end Sys2Proof.Machine
end

section
/-! PROOFS. Byte order cannot be observed (R64): `SameWords` is kept by every update of the state, so two runs of one
operation from such states have the same outcome up to `SameWords`. -/

namespace Sys2Proof.Machine

/- Halves. -/

/-- Two halves with the same registers and the same slot words, each word's bytes lying as its order says: one half of
`SameWords`. -/
structure HalfSameWords (o o' : ByteOrder) (h k : Half) : Prop where
  registers : k = { h with mem := k.mem }
  words : ∀ a, k.mem.word o' a = h.mem.word o a
  mem_wf : h.mem.wf = true ∧ k.mem.wf = true

section
variable {o o' : ByteOrder} {h k : Half}

/-- A write of the registers that is the same on both sides and keeps both slot memories. -/
theorem HalfSameWords.writeRegisters (e : HalfSameWords o o' h k) {h' k' : Half}
    (hk : k' = { h' with mem := k.mem }) (hm : h'.mem = h.mem := by rfl) : HalfSameWords o o' h' k' := by
  subst hk
  exact ⟨rfl, hm ▸ e.words, hm ▸ e.mem_wf⟩

/- What works on the registers only. -/

theorem swap_withMem (g : Half) (m : Memory) : { g with mem := m }.swap = { g.swap with mem := m } := by
  unfold Half.swap
  split <;> rfl

theorem countWord_withMem (g : Half) (m : Memory) : { g with mem := m }.countWord = { g.countWord with mem := m } := by
  unfold Half.countWord
  split <;> rfl

theorem dmaSlot_withMem (d : Dir) (g : Half) (m : Memory) : dmaSlot d { g with mem := m } = dmaSlot d g :=
  dmaSlot_congr rfl

theorem handleCompletion_withMem (p : Params) (d : Dir) (g : Half) (m : Memory) :
    { g with mem := m }.handleCompletion p d = { g.handleCompletion p d with mem := m } := by
  have hswap : { g with mem := m }.acknowledge.swap = { g.acknowledge.swap with mem := m } :=
    swap_withMem g.acknowledge m
  unfold Half.handleCompletion Half.arm
  rw [hswap, dmaSlot_withMem]

/-- One word stored on both sides, each in its own byte order. -/
theorem HalfSameWords.setWord (e : HalfSameWords o o' h k) (a : Nat) (v : Word) :
    HalfSameWords o o' { h with mem := h.mem.setWord o a v } { k with mem := k.mem.setWord o' a v } := by
  obtain ⟨hwf, kwf⟩ := e.mem_wf
  refine ⟨by rw [e.registers], fun b => ?_, setWord_wf _ o a v hwf, setWord_wf _ o' a v kwf⟩
  by_cases hb : b = a
  · rw [hb, word_setWord_same o a v hwf, word_setWord_same o' a v kwf]
  · rw [word_setWord_ne _ o v hb, word_setWord_ne _ o' v hb, e.words]

end

/- States. -/

section
variable {s t : State} (e : SameWords s t)
include e

theorem SameWords.n_eq : t.params.n = s.params.n := by rw [e.params]

theorem SameWords.rearm_eq : t.params.rearmSetsPending = s.params.rearmSetsPending := by rw [e.params]

/-- Whatever is read off the registers of a half is the same on both sides. -/
theorem SameWords.read_eq {α : Type} (d : Dir) (f : Half → α)
    (hf : ∀ (g : Half) (m : Memory), f { g with mem := m } = f g := by intros; rfl) :
    f (t.half d) = f (s.half d) := by
  rw [e.half d, hf]

theorem SameWords.cst_eq (d : Dir) : (t.half d).cst = (s.half d).cst := e.read_eq d Half.cst

theorem SameWords.pend_eq (d : Dir) : (t.half d).pend = (s.half d).pend := e.read_eq d Half.pend

theorem SameWords.irq_eq (d : Dir) : (t.half d).irq = (s.half d).irq := e.read_eq d Half.irq

theorem SameWords.beatAddr_eq (d : Dir) : beatAddr (t.half d) = beatAddr (s.half d) := e.read_eq d beatAddr

theorem SameWords.configArgsOk_eq (d : Dir) (r : DevDir) (sl : Slot) (k : Index) :
    configArgsOk t.params.n d (t.half d) r sl k = configArgsOk s.params.n d (s.half d) r sl k := by
  unfold configArgsOk
  rw [e.n_eq, e.read_eq d (dmaSlot d) (dmaSlot_withMem d)]

theorem SameWords.beatEnabled_eq (d : Dir) : t.beatEnabled d = s.beatEnabled d := by
  unfold State.beatEnabled
  rw [e.cst_eq, e.oracle]

theorem SameWords.oncompEnabled_eq (d : Dir) : t.oncompEnabled d = s.oncompEnabled d := e.irq_eq d

/-- The handler does not read BYTE_ORDER (R135). -/
theorem SameWords.handleCompletion_eq (d : Dir) (g : Half) :
    g.handleCompletion t.params d = g.handleCompletion s.params d := by
  rw [e.params]
  rfl

theorem SameWords.halfSameWords (d : Dir) :
    HalfSameWords s.params.byteOrder t.params.byteOrder (s.half d) (t.half d) :=
  ⟨e.half d, e.words d, e.mem_wf d⟩

/- Updates that keep the relation. -/

theorem SameWords.setShared {f f' : Bool} {p p' : List ResId} {l l' : List Word} {u u' : Outputs} (hf : f' = f)
    (hp : p' = p) (hl : l' = l) (hu : u' = u) :
    SameWords { s with fatal := f, poolFree := p, txlog := l, out := u }
      { t with fatal := f', poolFree := p', txlog := l', out := u' } where
  params := e.params
  half
    | .inp => e.half .inp
    | .out => e.half .out
  words
    | .inp => e.words .inp
    | .out => e.words .out
  mem_wf
    | .inp => e.mem_wf .inp
    | .out => e.mem_wf .out
  fatal := hf
  poolFree := hp
  txlog := hl
  oracle := e.oracle
  pending := e.pending
  drawn := e.drawn
  out := hu

theorem SameWords.setOut (u : Outputs) : SameWords { s with out := u } { t with out := u } :=
  e.setShared e.fatal e.poolFree e.txlog rfl

theorem SameWords.respond (c : RespCode) (v : Word) : SameWords (s.respond c v) (t.respond c v) := e.setOut _
theorem SameWords.raise (c : RespCode) : SameWords (s.raise c) (t.raise c) := e.respond c 0
theorem SameWords.quiet : SameWords s.quiet t.quiet := e.setOut _
theorem SameWords.pulseRxPop : SameWords s.pulseRxPop t.pulseRxPop := e.setOut _
theorem SameWords.pushTx (v : Word) : SameWords (s.pushTx v) (t.pushTx v) :=
  e.setShared e.fatal e.poolFree (congrArg (· ++ [v]) e.txlog) rfl

theorem SameWords.halfSameWords_setHalf (d : Dir) {h k : Half}
    (ek : HalfSameWords s.params.byteOrder t.params.byteOrder h k) (c : Dir) :
    HalfSameWords s.params.byteOrder t.params.byteOrder ((s.setHalf d h).half c) ((t.setHalf d k).half c) := by
  obtain rfl | rfl := dir_eq_or_eq_otherDir d c
  · rwa [half_setHalf_same, half_setHalf_same]
  · rw [half_setHalf_of_other, half_setHalf_of_other]
    exact e.halfSameWords c

theorem SameWords.setHalf (d : Dir) {h k : Half} (ek : HalfSameWords s.params.byteOrder t.params.byteOrder h k) :
    SameWords (s.setHalf d h) (t.setHalf d k) where
  params := by simpa only [setHalf_params] using e.params
  half c := (e.halfSameWords_setHalf d ek c).registers
  words c a := by simpa only [State.loadWord, setHalf_params] using (e.halfSameWords_setHalf d ek c).words a
  mem_wf c := (e.halfSameWords_setHalf d ek c).mem_wf
  fatal := by simpa only [setHalf_fatal] using e.fatal
  poolFree := by simpa only [setHalf_poolFree] using e.poolFree
  txlog := by simpa only [setHalf_txlog] using e.txlog
  oracle := by simpa only [setHalf_oracle] using e.oracle
  pending := by simpa only [setHalf_pending] using e.pending
  drawn := by simpa only [setHalf_drawn] using e.drawn
  out := by simpa only [setHalf_out] using e.out

/-- A write of the registers of one half. -/
theorem SameWords.writeRegisters (d : Dir) {h k : Half} (hk : k = { h with mem := (t.half d).mem })
    (hm : h.mem = (s.half d).mem := by rfl) : SameWords (s.setHalf d h) (t.setHalf d k) :=
  e.setHalf d ((e.halfSameWords d).writeRegisters hk hm)

theorem SameWords.swap (d : Dir) :
    SameWords (s.setHalf d (s.half d).swap) (t.setHalf d (t.half d).swap) :=
  e.writeRegisters d (by rw [e.half d, swap_withMem]) (swap_mem _)

theorem SameWords.countWord (d : Dir) : SameWords (s.countWord d) (t.countWord d) :=
  e.writeRegisters d (by rw [e.half d, countWord_withMem]) (countWord_half_mem _)

theorem SameWords.handleCompletion (d : Dir) :
    SameWords (s.setHalf d ((s.half d).handleCompletion s.params d))
      (t.setHalf d ((t.half d).handleCompletion t.params d)) := by
  rw [e.handleCompletion_eq]
  exact e.writeRegisters d (by rw [e.half d, handleCompletion_withMem]) (swap_mem _)

theorem SameWords.storeWord (d : Dir) (a : Nat) (v : Word) : SameWords (s.storeWord d a v) (t.storeWord d a v) :=
  e.setHalf d ((e.halfSameWords d).setWord a v)

theorem SameWords.loadSlot (d : Dir) (sl : Slot) (i : Index) : SameWords (s.loadSlot d sl i) (t.loadSlot d sl i) := by
  unfold State.loadSlot
  rw [e.n_eq, e.words]
  split
  · exact e.respond _ _
  · exact e.raise _

theorem SameWords.storeSlot (d : Dir) (sl : Slot) (i : Index) (x : Word) :
    SameWords (s.storeSlot d sl i x) (t.storeSlot d sl i x) := by
  unfold State.storeSlot
  rw [e.n_eq]
  split
  · exact (e.storeWord d _ x).respond _ _
  · exact e.raise _

end

/- Operations. -/

/-- Two outcomes that are the same up to `SameWords`. -/
inductive SameOutcome : Host.Outcome State Fault Refusal → Host.Outcome State Fault Refusal → Prop
  | next {s t : State} (e : SameWords s t) : SameOutcome (.next s) (.next t)
  | fault (f : Fault) : SameOutcome (.fault f) (.fault f)
  | refused (r : Refusal) : SameOutcome (.refused r) (.refused r)

/-- The same branch is taken on both sides. -/
theorem SameOutcome.ite {c c' : Prop} [Decidable c] [Decidable c'] (hc : c' ↔ c)
    {a a' b b' : Host.Outcome State Fault Refusal} (ha : SameOutcome a a') (hb : SameOutcome b b') :
    SameOutcome (if c then a else b) (if c' then a' else b') := by
  rw [if_congr hc rfl rfl]
  split
  · exact ha
  · exact hb

theorem SameOutcome.exists_next {a b : Host.Outcome State Fault Refusal} (e : SameOutcome a b) {s : State}
    (h : a = .next s) : ∃ t, b = .next t ∧ SameWords s t := by
  cases e with
  | next e =>
    cases h
    exact ⟨_, rfl, e⟩
  | fault | refused => cases h

section
variable {s t : State} (e : SameWords s t) (d : Dir)
include e

theorem sameOutcome_execClaim : SameOutcome (execClaim d s) (execClaim d t) := by
  unfold execClaim
  refine .ite (by rw [e.fatal]) (.next (e.raise _)) (.ite (by rw [e.cst_eq]) (.next (e.raise _)) ?_)
  have hdraw : drawId t.poolFree t.oracle.draw = drawId s.poolFree s.oracle.draw := by rw [e.poolFree, e.oracle]
  rw [hdraw]
  cases drawId s.poolFree s.oracle.draw with
  | none => exact .next ((e.setShared rfl e.poolFree e.txlog e.out).raise _)
  | some id =>
    have hpool := congrArg (List.filter (· ≠ id)) e.poolFree
    exact .next (((e.setShared e.fatal hpool e.txlog e.out).setHalf d
      ((e.halfSameWords d).writeRegisters (by rw [e.half d]))).respond _ _)

theorem sameOutcome_execConfig (r : DevDir) (sl : Slot) (k : Index) :
    SameOutcome (execConfig d r sl k s) (execConfig d r sl k t) :=
  .ite (by rw [e.fatal]) (.next (e.raise _)) (.ite (by rw [e.cst_eq]) (.next (e.raise _))
    (.ite (by rw [e.configArgsOk_eq])
      (.next ((e.writeRegisters d (by rw [e.half d, e.n_eq])).respond _ _)) (.next (e.raise _))))

theorem sameOutcome_execStart : SameOutcome (execStart d s) (execStart d t) :=
  .ite (by rw [e.fatal]) (.next (e.raise _)) (.ite (by rw [e.cst_eq]) (.next (e.raise _))
    (.next ((e.writeRegisters d (by rw [e.half d, e.rearm_eq])).respond _ _)))

theorem sameOutcome_execSwap : SameOutcome (execSwap d s) (execSwap d t) := by
  unfold execSwap
  rw [e.pend_eq]
  exact .ite (by rw [e.cst_eq]) (.next (e.raise _)) (.next ((e.swap d).respond _ _))

theorem sameOutcome_moveWord (x : Word) : SameOutcome (s.moveWord d x) (t.moveWord d x) := by
  unfold State.moveWord
  rw [e.beatAddr_eq]
  refine .ite (by rw [e.n_eq]) (.fault _) (.ite (by rw [e.read_eq d Half.xidx]) (.fault _) ?_)
  cases d with
  | inp =>
    have haddr : beatAddr t.inHalf = beatAddr s.inHalf := e.beatAddr_eq .inp
    rw [haddr]
    exact .next ((e.storeWord .inp _ x).countWord .inp).pulseRxPop
  | out =>
    have haddr : beatAddr t.outHalf = beatAddr s.outHalf := e.beatAddr_eq .out
    rw [haddr, e.words]
    exact .next ((e.countWord .out).pushTx _)

theorem sameOutcome_execBeat (x : Word) : SameOutcome (execBeat d x s) (execBeat d x t) :=
  .ite (by rw [e.beatEnabled_eq]) (sameOutcome_moveWord e d x) (.next e.quiet)

theorem sameOutcome_execOncomp : SameOutcome (execOncomp d s) (execOncomp d t) :=
  .ite (by rw [e.oncompEnabled_eq]) (.next (e.handleCompletion d).quiet) (.next e.quiet)

end

/-- Every operation but RESET has the same outcome from two states with the same words. -/
theorem sameOutcome_exec {s t : State} (e : SameWords s t) {i : Instr} (hi : i ≠ .reset) :
    SameOutcome (exec i s) (exec i t) := by
  cases i with
  | reset => exact absurd rfl hi
  | claim d => exact sameOutcome_execClaim e d
  | config d r sl k => exact sameOutcome_execConfig e d r sl k
  | start d => exact sameOutcome_execStart e d
  | swap d => exact sameOutcome_execSwap e d
  | beat d x => exact sameOutcome_execBeat e d x
  | oncomp d => exact sameOutcome_execOncomp e d
  | ldr d k =>
    simp only [exec, execLdr, e.read_eq d Half.reading]
    exact .next (e.loadSlot d _ k)
  | stw d k x =>
    simp only [exec, execStw, e.read_eq d Half.writing]
    exact .next (e.storeSlot d _ k x)
  | lds d sl k => exact .next (e.loadSlot d sl k)
  | sts d sl k x => exact .next (e.storeSlot d sl k x)
  | nop => exact .next (e.respond _ _)
  | rdints =>
    have hin : t.inHalf.irq = s.inHalf.irq := e.irq_eq .inp
    have hout : t.outHalf.irq = s.outHalf.irq := e.irq_eq .out
    simp only [exec, execRdints, hin, hout]
    exact .next (e.respond _ _)
  | rdstat d =>
    simp only [exec, execRdstat, e.fatal, e.read_eq d (rdstatWord s.fatal)]
    exact .next (e.respond _ _)
  | rdaddr d =>
    simp only [exec, execRdaddr, e.read_eq d Half.addr]
    exact .next (e.respond _ _)
  | rdlen d =>
    simp only [exec, execRdlen, e.read_eq d Half.len]
    exact .next (e.respond _ _)
  | rdptr d =>
    simp only [exec, execRdptr, e.read_eq d Half.reading, e.n_eq]
    exact .next (e.respond _ _)
  | wrptr d =>
    simp only [exec, execWrptr, e.read_eq d Half.writing, e.n_eq]
    exact .next (e.respond _ _)

/-- Settles O54: the outcomes are the same up to `SameWords`. -/
theorem byteOrderIsUnobservable : Obligations.ByteOrderIsUnobservable :=
  fun _ _ _ _ e hi h => (sameOutcome_exec e hi).exists_next h

end Sys2Proof.Machine
end

section
/-! PROOFS. The encoding (family `30_encoding.md`): decoding and encoding are inverse up to the data operand an operation
ignores, and one table of formats (R82) says both what the decoder refuses and what the opcode map selects. -/

namespace Sys2Proof

/- The label word of an operation, with any data operand. -/

/-- The operation with data operand `y` where it has one (STW, STS, BEAT IN), else the operation itself (R82). -/
def Instr.withData (y : Word) : Instr → Instr
  | .stw d k _ => .stw d k y
  | .sts d sl k _ => .sts d sl k y
  | .beat d _ => beatOf y d
  | i => i

/-- Written as its label, a well-formed operation keeps its data operand. -/
theorem Instr.withData_encodeData {i : Instr} (h : i.wf = true) : i.withData (encodeData i) = i := by
  cases i with
  | beat d x =>
    cases d with
    | inp => rfl
    | out =>
      obtain rfl : x = 0 := by simpa [Instr.wf] using h
      rfl
  | _ => rfl

theorem Instr.withData_wf (y : Word) (i : Instr) : (i.withData y).wf = true := by
  cases i with
  | beat d x => cases d <;> rfl
  | _ => rfl

/-- An operation either carries the data operand it is given, or ignores it (R82). -/
theorem Instr.encodeData_withData (x : Word) (i : Instr) :
    encodeData (i.withData x) = x ∨ encodeData (i.withData x) = 0 ∧ ∀ y, i.withData y = i.withData x := by
  cases i with
  | stw d k z => exact .inl rfl
  | sts d sl k z => exact .inl rfl
  | beat d z =>
    cases d with
    | inp => exact .inl rfl
    | out => exact .inr ⟨rfl, fun _ => rfl⟩
  | _ => exact .inr ⟨rfl, fun _ => rfl⟩

/- The fields an encoder writes are those its format reads back (R82). -/

theorem formatZ_fieldsOf (c : BitVec 5) (i : Instr) : (fieldsOf c).formatZ i = some i := rfl

theorem formatD_fieldsOf (c : BitVec 5) (i : Dir → Instr) (d : Dir) : (fieldsOf c d.bit).formatD i = some (i d) := by
  simp [Fields.formatD, fieldsOf]

theorem formatDK_fieldsOf (c : BitVec 5) (i : Dir → Index → Instr) (d : Dir) (k : Index) :
    (fieldsOf c d.bit (k := k)).formatDK i = some (i d k) := by
  simp [Fields.formatDK, fieldsOf]

theorem formatDSK_fieldsOf (c : BitVec 5) (i : Dir → Slot → Index → Instr) (d : Dir) (sl : Slot) (k : Index) :
    (fieldsOf c d.bit sl.bit (k := k)).formatDSK i = some (i d sl k) := by
  simp [Fields.formatDSK, fieldsOf]

theorem formatC_fieldsOf (c : BitVec 5) (i : Dir → DevDir → Slot → Index → Instr) (d : Dir) (r : DevDir) (sl : Slot)
    (k : Index) : (fieldsOf c d.bit sl.bit r.bit k).formatC i = some (i d r sl k) := by
  simp [Fields.formatC, fieldsOf]

/-- The label word of an operation decodes to that operation with the data operand given beside the word, one case per
row of R85 and R86. -/
theorem decode_encode_withData (i : Instr) (y : Word) : decode (encode i).1 y = some (i.withData y) := by
  unfold decode encode
  rw [Fields.ofWord_toWord]
  cases i with
  | nop => exact formatZ_fieldsOf 0x00 .nop
  | claim d => exact formatD_fieldsOf 0x01 .claim d
  | config d r sl k => exact formatC_fieldsOf 0x02 .config d r sl k
  | start d => exact formatD_fieldsOf 0x03 .start d
  | swap d => exact formatD_fieldsOf 0x04 .swap d
  | rdptr d => exact formatD_fieldsOf 0x05 .rdptr d
  | wrptr d => exact formatD_fieldsOf 0x06 .wrptr d
  | ldr d k => exact formatDK_fieldsOf 0x07 .ldr d k
  | stw d k _ => exact formatDK_fieldsOf 0x08 (fun d k => .stw d k y) d k
  | lds d sl k => exact formatDSK_fieldsOf 0x09 .lds d sl k
  | sts d sl k _ => exact formatDSK_fieldsOf 0x0A (fun d sl k => .sts d sl k y) d sl k
  | rdints => exact formatZ_fieldsOf 0x0B .rdints
  | rdstat d => exact formatD_fieldsOf 0x0C .rdstat d
  | rdaddr d => exact formatD_fieldsOf 0x0D .rdaddr d
  | rdlen d => exact formatD_fieldsOf 0x0E .rdlen d
  | beat d _ => exact formatD_fieldsOf 0x10 (beatOf y) d
  | oncomp d => exact formatD_fieldsOf 0x11 .oncomp d
  | reset => exact formatZ_fieldsOf 0x1F .reset

/-- Settles O1: the label carries the operation's own data operand. -/
theorem decodeEncodeRoundTrip : Obligations.DecodeEncodeRoundTrip := fun i h =>
  (decode_encode_withData i (encodeData i)).trans (congrArg some (Instr.withData_encodeData h))

/-- A word that decodes with one data operand decodes with every other, to the same operation but for that operand. -/
theorem decode_withData {l x : Word} {i : Instr} (h : decode l x = some i) (y : Word) :
    decode l y = some (i.withData y) := by
  rw [← encode_fst_of_decode h, decode_encode_withData]

/-- Settles O2: what `x` decodes to is its own `withData x`. -/
theorem encodeDecodeRoundTrip : Obligations.EncodeDecodeRoundTrip := by
  intro l x i h
  have hx : i.withData x = i := Option.some.inj ((decode_withData h x).symm.trans h)
  refine ⟨hx ▸ i.withData_wf x, encode_fst_of_decode h, ?_⟩
  obtain hdata | ⟨hzero, hignored⟩ := i.encodeData_withData x
  · exact .inl (hx ▸ hdata)
  · refine .inr ⟨hx ▸ hzero, fun y => ?_⟩
    rw [decode_withData h y, hignored y, hx]

/-- Settles O5: each word is the label of its operation. -/
theorem exampleWordsDecode : Obligations.ExampleWordsDecode :=
  ⟨decodeEncodeRoundTrip (.config .inp .rd .b 8) rfl, decodeEncodeRoundTrip (.config .out .wr .a 8) rfl,
    decodeEncodeRoundTrip (.swap .out) rfl, decodeEncodeRoundTrip (.ldr .inp 3) rfl,
    decodeEncodeRoundTrip (.stw .out 3 0x11) rfl, decodeEncodeRoundTrip (.lds .inp .b 0) rfl,
    decodeEncodeRoundTrip (.beat .inp 0xCAFE0001) rfl, decodeEncodeRoundTrip (.beat .out 0) rfl,
    decodeEncodeRoundTrip (.oncomp .out) rfl, decodeEncodeRoundTrip .reset rfl⟩

end Sys2Proof
end

section
/-! PROOFS. Which words are legal (R85 to R89): the format of the word's opcode (R82), when its unused fields are 0. -/

namespace Sys2Proof

/-- The formats of R82: which of D, S, R, K an operation uses. -/
inductive Format where
  | z
  | d
  | dk
  | dsk
  | c

def Format.usesD : Format → Bool
  | .z => false
  | .d | .dk | .dsk | .c => true

def Format.usesS : Format → Bool
  | .z | .d | .dk => false
  | .dsk | .c => true

def Format.usesR : Format → Bool
  | .z | .d | .dk | .dsk => false
  | .c => true

def Format.usesK : Format → Bool
  | .z | .d => false
  | .dk | .dsk | .c => true

/-- The format of the operation with a class and opcode, none where the opcode is reserved (R85, R86). -/
def formatOf : Nat → Option Format
  | 0x00 | 0x0B | 0x1F => some .z
  | 0x01 | 0x03 | 0x04 | 0x05 | 0x06 | 0x0C | 0x0D | 0x0E | 0x10 | 0x11 => some .d
  | 0x07 | 0x08 => some .dk
  | 0x09 | 0x0A => some .dsk
  | 0x02 => some .c
  | _ => none

/-- ZERO is 0, and so is every field that the format does not use (R88). -/
def Fields.Fits (f : Fields) (m : Format) : Prop :=
  (m.usesD = false → f.d = false) ∧ (m.usesS = false → f.s = false) ∧ (m.usesR = false → f.r = false) ∧
    f.zero = 0 ∧ (m.usesK = false → f.k = 0)

section
variable {f : Fields}

@[simp] theorem Fields.fits_z : f.Fits .z ↔ f.d = false ∧ f.s = false ∧ f.r = false ∧ f.zero = 0 ∧ f.k = 0 := by
  simp [Fields.Fits, Format.usesD, Format.usesS, Format.usesR, Format.usesK]
@[simp] theorem Fields.fits_d : f.Fits .d ↔ f.s = false ∧ f.r = false ∧ f.zero = 0 ∧ f.k = 0 := by
  simp [Fields.Fits, Format.usesD, Format.usesS, Format.usesR, Format.usesK]
@[simp] theorem Fields.fits_dk : f.Fits .dk ↔ f.s = false ∧ f.r = false ∧ f.zero = 0 := by
  simp [Fields.Fits, Format.usesD, Format.usesS, Format.usesR, Format.usesK]
@[simp] theorem Fields.fits_dsk : f.Fits .dsk ↔ f.r = false ∧ f.zero = 0 := by
  simp [Fields.Fits, Format.usesD, Format.usesS, Format.usesR, Format.usesK]
@[simp] theorem Fields.fits_c : f.Fits .c ↔ f.zero = 0 := by
  simp [Fields.Fits, Format.usesD, Format.usesS, Format.usesR, Format.usesK]

/- The decoder's reading of each format. -/

theorem Fields.formatZ_eq_none {i : Instr} : f.formatZ i = none ↔ ¬ f.Fits .z := by
  simp only [Fields.formatZ, Fields.fits_z, ite_eq_right_iff, reduceCtorEq, imp_false]

theorem Fields.formatD_eq_none {i : Dir → Instr} : f.formatD i = none ↔ ¬ f.Fits .d := by
  simp only [Fields.formatD, Fields.fits_d, ite_eq_right_iff, reduceCtorEq, imp_false]

theorem Fields.formatDK_eq_none {i : Dir → Index → Instr} : f.formatDK i = none ↔ ¬ f.Fits .dk := by
  simp only [Fields.formatDK, Fields.fits_dk, ite_eq_right_iff, reduceCtorEq, imp_false]

theorem Fields.formatDSK_eq_none {i : Dir → Slot → Index → Instr} : f.formatDSK i = none ↔ ¬ f.Fits .dsk := by
  simp only [Fields.formatDSK, Fields.fits_dsk, ite_eq_right_iff, reduceCtorEq, imp_false]

theorem Fields.formatC_eq_none {i : Dir → DevDir → Slot → Index → Instr} : f.formatC i = none ↔ ¬ f.Fits .c := by
  simp only [Fields.formatC, Fields.fits_c, ite_eq_right_iff, reduceCtorEq, imp_false]

end

/-- A word is legal: its opcode has a format, and its fields fit it. -/
def Fields.Legal (f : Fields) : Prop := ∃ m, formatOf f.clsOp.toNat = some m ∧ f.Fits m

theorem Fields.legal_iff {f : Fields} {c : Nat} {m : Format} (hc : f.clsOp.toNat = c) (hm : formatOf c = some m) :
    f.Legal ↔ f.Fits m := by
  simp [Fields.Legal, hc, hm]

/-- The decoder refuses exactly the words that are not legal (R88), one case per row of R85 and R86. -/
theorem decode_eq_none_iff (l x : Word) : decode l x = none ↔ ¬ (Fields.ofWord l).Legal := by
  have arm {o : Option Instr} {c : Nat} {m : Format} (hc : (Fields.ofWord l).clsOp.toNat = c)
      (hm : formatOf c = some m) (ho : o = none ↔ ¬ (Fields.ofWord l).Fits m) :
      o = none ↔ ¬ (Fields.ofWord l).Legal := by rw [Fields.legal_iff hc hm, ho]
  unfold decode
  dsimp only
  split
  case h_1 hc => exact arm hc rfl Fields.formatZ_eq_none
  case h_2 hc => exact arm hc rfl Fields.formatD_eq_none
  case h_3 hc => exact arm hc rfl Fields.formatC_eq_none
  case h_4 hc => exact arm hc rfl Fields.formatD_eq_none
  case h_5 hc => exact arm hc rfl Fields.formatD_eq_none
  case h_6 hc => exact arm hc rfl Fields.formatD_eq_none
  case h_7 hc => exact arm hc rfl Fields.formatD_eq_none
  case h_8 hc => exact arm hc rfl Fields.formatDK_eq_none
  case h_9 hc => exact arm hc rfl Fields.formatDK_eq_none
  case h_10 hc => exact arm hc rfl Fields.formatDSK_eq_none
  case h_11 hc => exact arm hc rfl Fields.formatDSK_eq_none
  case h_12 hc => exact arm hc rfl Fields.formatZ_eq_none
  case h_13 hc => exact arm hc rfl Fields.formatD_eq_none
  case h_14 hc => exact arm hc rfl Fields.formatD_eq_none
  case h_15 hc => exact arm hc rfl Fields.formatD_eq_none
  case h_16 hc => exact arm hc rfl Fields.formatD_eq_none
  case h_17 hc => exact arm hc rfl Fields.formatD_eq_none
  case h_18 hc => exact arm hc rfl Fields.formatZ_eq_none
  case h_19 =>
    refine iff_of_true rfl fun ⟨m, hm, _⟩ => ?_
    unfold formatOf at hm
    split at hm <;> contradiction

theorem legal_of_decode {l x : Word} {i : Instr} (h : decode l x = some i) : (Fields.ofWord l).Legal := by
  by_contra hl
  simp [(decode_eq_none_iff l x).mpr hl] at h

/- The opcode map (R85, R86): a row is the class and opcode of its match, and the mask of its format. -/

/-- The fields of the mask of a format: ones where a field is fixed, zeros where an operand stands. -/
def Format.mask (m : Format) : Fields :=
  { clsOp := BitVec.allOnes 5
    d := !m.usesD
    s := !m.usesS
    r := !m.usesR
    zero := BitVec.allOnes 8
    k := if m.usesK then 0 else BitVec.allOnes 16 }

/-- The class and opcode of a row. -/
def OpRow.code (r : OpRow) : BitVec 5 := (Fields.ofWord r.pat).clsOp

/-- Every row of the two tables has the match and the mask of the format of its opcode. -/
theorem opcodeMap_formats : ∀ r ∈ opcodeMap,
    Fields.ofWord r.pat = fieldsOf r.code ∧
      (formatOf r.code.toNat).map Format.mask = some (Fields.ofWord r.mask) := by
  decide

/-- Every opcode that has a format has a row. -/
theorem exists_row_of_formatOf (c : BitVec 5) : (formatOf c.toNat).isSome = true → ∃ r ∈ opcodeMap, r.code = c := by
  revert c
  decide

/-- The bitwise and of two label words, field by field. -/
def Fields.and (f g : Fields) : Fields :=
  { clsOp := f.clsOp &&& g.clsOp, d := f.d && g.d, s := f.s && g.s, r := f.r && g.r, zero := f.zero &&& g.zero,
    k := f.k &&& g.k }

theorem Fields.ofWord_and (l w : Word) : Fields.ofWord (l &&& w) = (Fields.ofWord l).and (Fields.ofWord w) := by
  simp [Fields.ofWord, Fields.and, BitVec.extractLsb'_and]

theorem Fields.ofWord_inj {l w : Word} : Fields.ofWord l = Fields.ofWord w ↔ l = w :=
  ⟨fun h => by rw [← Fields.toWord_ofWord l, h, Fields.toWord_ofWord], congrArg _⟩

/-- Masking the operands away leaves a class and opcode alone exactly when the other fields are 0. -/
theorem Fields.and_mask_eq_iff (f : Fields) (m : Format) (c : BitVec 5) :
    f.and m.mask = fieldsOf c ↔ f.clsOp = c ∧ f.Fits m := by
  have clsOp : f.clsOp &&& 31 = f.clsOp := BitVec.and_allOnes
  have zero : f.zero &&& 255 = f.zero := BitVec.and_allOnes
  have k : f.k &&& 65535 = f.k := BitVec.and_allOnes
  cases m <;>
    simp_all [Fields.and, Format.mask, fieldsOf, Format.usesD, Format.usesS, Format.usesR, Format.usesK]

/-- A row selects the legal words that have its class and opcode. -/
theorem selects_iff {r : OpRow} (hr : r ∈ opcodeMap) (l : Word) :
    r.selects l = true ↔ (Fields.ofWord l).clsOp = r.code ∧ (Fields.ofWord l).Legal := by
  obtain ⟨hpat, hmask⟩ := opcodeMap_formats r hr
  obtain ⟨m, hm, hmask⟩ := Option.map_eq_some_iff.mp hmask
  calc r.selects l = true
      ↔ (Fields.ofWord l).and m.mask = fieldsOf r.code := by
        rw [OpRow.selects, beq_iff_eq, ← Fields.ofWord_inj, Fields.ofWord_and, hpat, hmask]
    _ ↔ (Fields.ofWord l).clsOp = r.code ∧ (Fields.ofWord l).Fits m := Fields.and_mask_eq_iff _ _ _
    _ ↔ (Fields.ofWord l).clsOp = r.code ∧ (Fields.ofWord l).Legal :=
        and_congr_right fun hc => (Fields.legal_iff (congrArg BitVec.toNat hc) hm).symm

/-- The rows of the map select the legal words, and no others. -/
theorem legal_iff_exists_selects (l : Word) : (Fields.ofWord l).Legal ↔ ∃ r ∈ opcodeMap, r.selects l = true := by
  constructor
  · intro h
    have ⟨m, hm, _⟩ := h
    obtain ⟨r, hr, hc⟩ := exists_row_of_formatOf (Fields.ofWord l).clsOp (by simp [hm])
    exact ⟨r, hr, (selects_iff hr l).mpr ⟨hc.symm, h⟩⟩
  · rintro ⟨r, hr, hsel⟩
    exact ((selects_iff hr l).mp hsel).2

/-- No two rows share an opcode, and none share a mnemonic. -/
theorem opcodeMap_inj : ∀ r ∈ opcodeMap, ∀ q ∈ opcodeMap, q.code = r.code ↔ r.mnemonic = q.mnemonic := by
  decide

/-- The row of an operation. -/
theorem exists_row (i : Instr) : ∃ r ∈ opcodeMap, r.code = (encodeFields i).clsOp ∧ r.mnemonic = i.mnemonic := by
  have row (n : Nat) (hn : n < opcodeMap.length) (hc : opcodeMap[n].code = (encodeFields i).clsOp)
      (hm : opcodeMap[n].mnemonic = i.mnemonic) :
      ∃ r ∈ opcodeMap, r.code = (encodeFields i).clsOp ∧ r.mnemonic = i.mnemonic :=
    ⟨_, List.getElem_mem hn, hc, hm⟩
  cases i with
  | nop => exact row 0 (by decide) rfl rfl
  | claim _ => exact row 1 (by decide) rfl rfl
  | config _ _ _ _ => exact row 2 (by decide) rfl rfl
  | start _ => exact row 3 (by decide) rfl rfl
  | swap _ => exact row 4 (by decide) rfl rfl
  | rdptr _ => exact row 5 (by decide) rfl rfl
  | wrptr _ => exact row 6 (by decide) rfl rfl
  | ldr _ _ => exact row 7 (by decide) rfl rfl
  | stw _ _ _ => exact row 8 (by decide) rfl rfl
  | lds _ _ _ => exact row 9 (by decide) rfl rfl
  | sts _ _ _ _ => exact row 10 (by decide) rfl rfl
  | rdints => exact row 11 (by decide) rfl rfl
  | rdstat _ => exact row 12 (by decide) rfl rfl
  | rdaddr _ => exact row 13 (by decide) rfl rfl
  | rdlen _ => exact row 14 (by decide) rfl rfl
  | beat _ _ => exact row 15 (by decide) rfl rfl
  | oncomp _ => exact row 16 (by decide) rfl rfl
  | reset => exact row 17 (by decide) rfl rfl

/-- Settles O3: decoder and opcode map accept the legal words, and both tell the operations apart by the opcode. -/
theorem decoderFollowsOpcodeMap : Obligations.DecoderFollowsOpcodeMap := by
  intro l x
  constructor
  · intro i h r hr
    obtain ⟨q, hq, hcode, hmnemonic⟩ := exists_row i
    rw [selects_iff hr, and_iff_left (legal_of_decode h), ← encodeFields_of_decode h, ← hcode, ← hmnemonic]
    exact opcodeMap_inj r hr q hq
  · rw [decode_eq_none_iff, legal_iff_exists_selects]
    simp

/- The command port. -/

theorem decodeCommand_eq_none_iff (l x : Word) :
    decodeCommand l x = none ↔ l.getLsbD 31 = true ∨ decode l x = none := by
  unfold decodeCommand isEventWord
  cases l.getLsbD 31 <;> simp

/-- With CLS = 0 the class and opcode field is the opcode (R81). -/
theorem clsOp_toNat_of_command {l : Word} (h : l.getLsbD 31 = false) :
    (Fields.ofWord l).clsOp.toNat = (l.extractLsb' 27 4).toNat := by
  have hlt : l.toNat / 2 ^ 31 % 2 ≠ 1 := by
    simpa [BitVec.getLsbD, Nat.testBit_eq_decide_div_mod_eq] using h
  simp only [Fields.ofWord, BitVec.extractLsb'_toNat, Nat.shiftRight_eq_div_pow]
  omega

theorem opcode_lt (l : Word) : (l.extractLsb' 27 4).toNat < 16 := (l.extractLsb' 27 4).isLt

/-- 0xF is the one reserved opcode of the commands (R85, R88). -/
theorem formatOf_eq_none_iff {c : Nat} (hc : c < 16) : formatOf c = none ↔ c = 15 := by
  interval_cases c <;> simp [formatOf]

/-- Which commands leave D, S, R and K unused (R82). -/
theorem unused_iff {c : Nat} {m : Format} (hc : c < 16) (hm : formatOf c = some m) :
    (m.usesD = false ↔ c ∈ [0, 11]) ∧ (m.usesS = false ↔ c ∉ [2, 9, 10]) ∧ (m.usesR = false ↔ c ≠ 2) ∧
      (m.usesK = false ↔ c ∉ [2, 7, 8, 9, 10]) := by
  interval_cases c <;> cases hm <;> decide

/-- A command word is legal when its opcode is not reserved and every field its format does not use is 0. -/
theorem legal_command_iff {l : Word} {c : Nat} (hop : (Fields.ofWord l).clsOp.toNat = c) (hc : c < 16) :
    (Fields.ofWord l).Legal ↔ c ≠ 15 ∧ (c ∈ [0, 11] → l.getLsbD 26 = false) ∧
      (c ∉ [2, 9, 10] → l.getLsbD 25 = false) ∧ (c ≠ 2 → l.getLsbD 24 = false) ∧ l.extractLsb' 16 8 = 0 ∧
      (c ∉ [2, 7, 8, 9, 10] → l.extractLsb' 0 16 = 0) := by
  cases hm : formatOf c with
  | none =>
    refine iff_of_false (fun ⟨m, hm', _⟩ => ?_) fun h => h.1 ((formatOf_eq_none_iff hc).mp hm)
    simp [hop, hm] at hm'
  | some m =>
    have hne : c ≠ 15 := fun h => by simp [(formatOf_eq_none_iff hc).mpr h] at hm
    obtain ⟨hD, hS, hR, hK⟩ := unused_iff hc hm
    rw [Fields.legal_iff hop hm, and_iff_right hne, ← hD, ← hS, ← hR, ← hK]
    rfl

/-- Settles O4: a word with CLS = 0 is refused when it is not legal. -/
theorem illegalCommandWords : Obligations.IllegalCommandWords := by
  intro l x
  rw [decodeCommand_eq_none_iff, decode_eq_none_iff]
  cases hcls : l.getLsbD 31 with
  | true => simp
  | false =>
    rw [legal_command_iff (clsOp_toNat_of_command hcls) (opcode_lt l)]
    simp only [Bool.false_eq_true, false_or, not_and_or, Classical.not_imp, Bool.not_eq_false, ne_eq, not_not]
    tauto

end Sys2Proof

namespace Sys2Proof.Machine

theorem step_of_no_command {s : State} (hs : s.nextStimulus.source = .port)
    (hd : decodeCommand s.nextStimulus.label s.nextStimulus.data = none) :
    step s = .next (s.accept.raise .errIllegal) := by
  simp only [step, hs, hd]
  rfl

/-- Settles O7: the command port decodes neither kind of word, and the accepted state answers ERR_ILLEGAL. -/
theorem illegalWordAnswersErrIllegal : Obligations.IllegalWordAnswersErrIllegal := by
  intro s t r hp hs hd
  obtain rfl : s.nextStimulus = t := nextStimulus_of_pending_cons hp
  rw [step_of_no_command hs ((decodeCommand_eq_none_iff _ _).mpr hd.symm), accept_of_pending_cons hp]
  rfl

end Sys2Proof.Machine
end

section
/-! PROOFS. The start-up sequence (R94, R233): each of claim, configure and start answers OK in the channel state the one
before it leaves. -/

namespace Sys2Proof.Machine

/-- `t` answers OK with `v`, has the half `h` of direction `d`, and the other half, the parameters and FATAL of `s`. -/
structure AnsweredOk (s : State) (d : Dir) (h : Half) (v : Word) (t : State) : Prop where
  resp : t.out.resp = some ⟨.ok, v⟩
  half : t.half d = h
  other : t.half (otherDir d) = s.half (otherDir d)
  params : t.params = s.params
  fatal : t.fatal = s.fatal

theorem answeredOk_respond {s s' : State} (hhalf : ∀ e, s'.half e = s.half e) (hparams : s'.params = s.params)
    (hfatal : s'.fatal = s.fatal) (d : Dir) (h : Half) (v : Word) :
    AnsweredOk s d h v ((s'.setHalf d h).respond .ok v) where
  resp := rfl
  half := by simp
  other := by simp [hhalf]
  params := by simp [hparams]
  fatal := by simp [hfatal]

section
variable {s : State} {d : Dir}

/-- CLAIM of a FREE channel with a free id takes one (R131). -/
theorem exec_claim_of_free (hf : s.fatal = false) (hc : (s.half d).cst = .free) (hp : s.poolFree ≠ []) :
    ∃ id t, exec (.claim d) s = .next t ∧
      AnsweredOk s d { s.half d with id := some id, cst := .claimed } (BitVec.ofNat 32 id.val) t := by
  obtain ⟨id, hid⟩ := Option.ne_none_iff_exists'.mp (mt (drawId_eq_none s.poolFree s.oracle.draw).mp hp)
  have hanswer := answeredOk_respond (s := s) (s' := { s with poolFree := s.poolFree.filter (· ≠ id) }) (by simp) rfl rfl
  exact ⟨id, _, by simp [exec, execClaim, hf, hc, hid], hanswer d _ _⟩

/-- CONFIG of a CLAIMED channel with the operands of R195 binds it to its slot (R132). -/
theorem exec_config_of_claimed (hf : s.fatal = false) (hc : (s.half d).cst = .claimed) {sl : Slot} {k : Index}
    (hk : k.toNat = s.params.n) (hsl : sl = dmaSlot d (s.half d)) :
    ∃ t, exec (.config d (devDirOf d) sl k) s = .next t ∧
      AnsweredOk s d { s.half d with
        dirn := devDirOf d, addr := BitVec.ofNat 17 (slotBase s.params.n sl), len := k, xidx := 0, ie := true,
        cst := .idle } 0 t := by
  have hargs := (configArgsOk_iff s.params.n d (s.half d) (devDirOf d) sl k).mpr ⟨rfl, hk, hsl⟩
  exact ⟨_, by simp [exec, execConfig, hf, hc, hargs], answeredOk_respond (fun _ => rfl) rfl rfl d _ 0⟩

/-- START of an IDLE channel arms it (R133). -/
theorem exec_start_of_idle (hf : s.fatal = false) (hc : (s.half d).cst = .idle) :
    ∃ t, exec (.start d) s = .next t ∧
      AnsweredOk s d { s.half d with
        xidx := 0, cst := .armed, pend := s.params.rearmSetsPending || (s.half d).pend } 0 t :=
  ⟨_, by simp [exec, execStart, hf, hc], answeredOk_respond (fun _ => rfl) rfl rfl d _ 0⟩

end

theorem execAll_cons_of_next {i : Instr} {s t : State} (h : exec i s = .next t) (r : List Instr) :
    execAll (i :: r) s = execAll r t := by
  simp only [execAll, h]

/-- N is a block length that the 16 bits of K can hold (R6, R81). -/
theorem ofNat_n_toNat {p : Params} (h : p.wf = true) : (BitVec.ofNat 16 p.n).toNat = p.n := by
  obtain ⟨⟨-, hn⟩, -⟩ := (Params.wf_iff p).mp h
  rw [BitVec.toNat_ofNat]
  omega

/-- Settles O41: FREE, CLAIMED, IDLE, ARMED, and IP is 0 throughout because it was 0 in FREE. -/
theorem startupSequenceArmsChannel : Obligations.StartupSequenceArmsChannel := by
  intro s d hi hc hf hp
  have hip : (s.half d).ip = false := ((hi.half d).quiet_of_unconfigured (by simp [hc, configured])).1
  obtain ⟨id, t, ht, et⟩ := exec_claim_of_free hf hc hp
  obtain ⟨u, hu, eu⟩ := exec_config_of_claimed (s := t) (d := d) (sl := dmaSlot d (s.half d))
    (k := BitVec.ofNat 16 s.params.n) (et.fatal.trans hf) (by rw [et.half])
    (by rw [et.params, ofNat_n_toNat hi.params_wf]) (dmaSlot_congr (by rw [et.half]))
  obtain ⟨v, hv, ev⟩ := exec_start_of_idle (s := u) (d := d) (by rw [eu.fatal, et.fatal, hf]) (by rw [eu.half])
  have hall : execAll (initSeq s.params d (s.half d)) s = .next v := by
    rw [initSeq, execAll_cons_of_next ht, execAll_cons_of_next hu, execAll_cons_of_next hv]
    rfl
  have hv_half := ev.half
  rw [eu.half, et.half, et.params] at hv_half
  refine ⟨t, u, v, ht, hu, hv, hall, ⟨_, et.resp⟩, eu.resp, ev.resp, ?_⟩
  rw [hv_half, ev.other, eu.other, et.other]
  exact ⟨rfl, rfl, rfl, hip, ofNat_n_toNat hi.params_wf, slotBase_toNat hi.params_wf _, rfl⟩

end Sys2Proof.Machine
end

section
/-! PROOFS. The Double Buffer operations (family `40_double_buffer.md`): loads and stores through a role or of a named slot
(R104 to R107), the two pointers (R102, R103), SWAP (R100, R101, R109), and what any sequence of operations makes of the
roles (R108). -/

namespace Sys2Proof.Machine

/- A load and a store through a role are those of the slot that has the role (R66, R67). -/

theorem exec_ldr_eq_exec_lds (d : Dir) (i : Index) (s : State) :
    exec (.ldr d i) s = exec (.lds d (s.half d).reading i) s := rfl

theorem exec_stw_eq_exec_sts (d : Dir) (i : Index) (x : Word) (s : State) :
    exec (.stw d i x) s = exec (.sts d (s.half d).writing i x) s := rfl

/- The index check (R65). -/

theorem exec_lds_of_ge {s : State} {i : Index} (h : s.params.n ≤ i.toNat) (d : Dir) (sl : Slot) :
    exec (.lds d sl i) s = .next (s.raise .errArg) :=
  congrArg _ ((loadSlot_cases s d sl i).resolve_right fun hlt => Nat.not_le.mpr hlt.1 h).2

theorem exec_sts_of_ge {s : State} {i : Index} (h : s.params.n ≤ i.toNat) (d : Dir) (sl : Slot) (x : Word) :
    exec (.sts d sl i x) s = .next (s.raise .errArg) :=
  congrArg _ ((storeSlot_cases s d sl i x).resolve_right fun hlt => Nat.not_le.mpr hlt.1 h).2

/-- Settles O18. -/
theorem ldsReadsNamedSlot : Obligations.LdsReadsNamedSlot :=
  fun _ d sl _ => ⟨fun hi => exec_lds_of_lt rfl hi d sl, fun hi => exec_lds_of_ge hi d sl⟩

/-- Settles O17: LDR is LDS of the slot in the reading role. -/
theorem ldrReadsReadingSlot : Obligations.LdrReadsReadingSlot := by
  intro s d i
  rw [exec_ldr_eq_exec_lds]
  exact ldsReadsNamedSlot s d (s.half d).reading i

/-- A store changes the slot memory of its direction and nothing else. -/
theorem storeWord_eq_setHalf (s : State) (d : Dir) (a : Nat) (v : Word) :
    s.storeWord d a v = s.setHalf d { s.half d with mem := ((s.storeWord d a v).half d).mem } := by
  rw [half_storeWord_same]
  rfl

/-- Settles O20: the word reads back, and the store touches neither another word nor another field. -/
theorem stsStoresNamedSlot : Obligations.StsStoresNamedSlot := by
  intro s d sl i x hwf
  refine ⟨fun hi => ⟨_, exec_sts_of_lt hi d sl x, ?readBack, fun k hk => ?otherBytes, ?canonical, ?frame⟩,
    fun hi => exec_sts_of_ge hi d sl x⟩
  case readBack => rw [respond_loadWord, loadWord_storeWord_same s d _ x hwf]
  case otherBytes =>
    rw [half_respond, half_storeWord_same]
    exact byte_setWord_ne _ _ x hk
  case canonical =>
    rw [half_respond, half_storeWord_same]
    exact setWord_wf _ _ _ x hwf
  case frame =>
    rw [half_respond]
    exact (congrArg (State.respond · .ok 0) (storeWord_eq_setHalf s d _ x)).trans (respond_setHalf s d _ .ok 0)

/-- Settles O19: STW is STS of the slot in the writing role. -/
theorem stwStoresWritingSlot : Obligations.StwStoresWritingSlot := by
  intro s d i x hwf
  rw [exec_stw_eq_exec_sts]
  exact stsStoresNamedSlot s d (s.half d).writing i x hwf

/- The two pointers. -/

theorem slotBase_word (n : Nat) (sl : Slot) :
    BitVec.ofNat 32 (slotBase n sl) = if sl = .a then 0 else BitVec.ofNat 32 n := by
  cases sl <;> rfl

theorem slotBase_otherSlot_word (n : Nat) (sl : Slot) :
    BitVec.ofNat 32 (slotBase n (otherSlot sl)) = if sl = .a then BitVec.ofNat 32 n else 0 := by
  cases sl <;> rfl

/-- Settles O15: each pointer is the base of the slot in its role. -/
theorem pointersReturnRoleBases : Obligations.PointersReturnRoleBases := by
  intro s d
  rw [← slotBase_word, ← slotBase_otherSlot_word]
  exact ⟨rfl, rfl⟩

/- SWAP. -/

theorem configured_eq_false_iff (c : ChanState) : configured c = false ↔ c = .free ∨ c = .claimed := by
  cases c <;> simp [configured]

theorem configured_eq_true_iff (c : ChanState) : configured c = true ↔ c = .idle ∨ c = .armed ∨ c = .done := by
  cases c <;> simp [configured]

theorem otherSlot_eq_ite (sl : Slot) : otherSlot sl = if sl = .a then .b else .a := by cases sl <;> rfl

theorem swap_of_due {h : Half} (hp : h.pend = true) : h.swap = { h with rsel := otherSlot h.rsel, pend := false } :=
  if_pos hp

theorem swap_of_not_due {h : Half} (hp : h.pend = false) : h.swap = h := if_neg (by simp [hp])

section
variable {s : State} {d : Dir}

theorem exec_swap_of_configured (hc : configured (s.half d).cst = true) :
    exec (.swap d) s = .next (s.raise .errState) := if_pos hc

theorem exec_swap_of_unconfigured (hc : configured (s.half d).cst = false) :
    exec (.swap d) s = .next ((s.setHalf d (s.half d).swap).respond .ok (flagWord (s.half d).pend)) :=
  if_neg (by simp [hc])

/-- A SWAP that is executed when no swap is due answers OK with 0 (R101). -/
theorem exec_swap_of_not_due (hc : configured (s.half d).cst = false) (hp : (s.half d).pend = false) :
    exec (.swap d) s = .next (s.respond .ok 0) := by
  rw [exec_swap_of_unconfigured hc, swap_of_not_due hp, setHalf_half, hp]
  rfl

theorem exec_oncomp_of_enabled (he : s.oncompEnabled d = true) :
    exec (.oncomp d) s = .next (s.setHalf d ((s.half d).handleCompletion s.params d)).quiet := if_pos he

end

/-- Settles O21. -/
theorem swapExchangesRolesWhenDue : Obligations.SwapExchangesRolesWhenDue := by
  intro s d
  simp only [← configured_eq_false_iff, ← configured_eq_true_iff, ← otherSlot_eq_ite]
  refine ⟨fun hc => ⟨fun hp => ?due, exec_swap_of_not_due hc⟩, exec_swap_of_configured⟩
  case due =>
    rw [exec_swap_of_unconfigured hc, swap_of_due hp, hp, respond_setHalf]
    rfl

/-- Settles O22: a SWAP leaves PEND at 0 and the channel not configured, so that the second finds no swap due. -/
theorem secondSwapIsNoOp : Obligations.SecondSwapIsNoOp := by
  intro s d hc
  rw [← configured_eq_false_iff] at hc
  exact ⟨_, exec_swap_of_unconfigured hc, exec_swap_of_not_due (by simpa using hc) (by simp)⟩

/-- Settles O23: the words stay where they are, and the slots that LDR and the writing role name are exchanged. -/
theorem swapPublishesWritingSlot : Obligations.SwapPublishesWritingSlot := by
  intro s d hp hc
  rw [← configured_eq_false_iff] at hc
  refine ⟨_, exec_swap_of_unconfigured hc, fun i hi => ?_⟩
  generalize ht : (s.setHalf d (s.half d).swap).respond .ok (flagWord (s.half d).pend) = t
  have hhalf : t.half d = (s.half d).swap := by rw [← ht, half_respond, half_setHalf_same]
  have hparams : t.params = s.params := by rw [← ht, respond_params, setHalf_params]
  have hn : t.params.n = s.params.n := by rw [hparams]
  have hword (a : Nat) : t.loadWord d a = s.loadWord d a := loadWord_congr (by rw [hhalf, swap_mem]) hparams a
  have hreading : (t.half d).reading = (s.half d).writing := by simp [hhalf, hp]
  have hwriting : (t.half d).writing = (s.half d).reading := by simp [hhalf, hp]
  rw [exec_ldr_eq_exec_lds, hreading, hwriting, exec_lds_of_lt hn hi, exec_lds_of_lt hn hi, hword, hword]
  exact ⟨rfl, rfl⟩

/- Effective swaps (R100, R108). -/

/-- The operation carries out the micro-operation `swap(d)`: a SWAP that is not refused, or a handler that is taken. -/
abbrev RunsSwap (d : Dir) (i : Instr) (s : State) : Prop :=
  i = .swap d ∧ configured (s.half d).cst = false ∨ i = .oncomp d ∧ s.oncompEnabled d = true

/-- The handler exchanges the roles as `swap(d)` does: neither its acknowledge nor its arm writes RSEL (R135). -/
theorem handleCompletion_rsel (p : Params) (d : Dir) (h : Half) : (h.handleCompletion p d).rsel = h.swap.rsel :=
  (swap_rsel h.acknowledge).trans (swap_rsel h).symm

section
variable {d : Dir} {i : Instr} {s t : State}

theorem effectiveSwaps_cons (h : exec i s = .next t) (r : List Instr) :
    effectiveSwaps d (i :: r) s = effectiveSwaps d [i] s + effectiveSwaps d r t := by
  simp [effectiveSwaps, h]

theorem effectiveSwaps_singleton (h : exec i s = .next t) :
    effectiveSwaps d [i] s = if RunsSwap d i s ∧ (s.half d).pend = true then 1 else 0 := by
  simp [effectiveSwaps, h]

theorem execAll_cons_eq_next {r : List Instr} (h : execAll (i :: r) s = .next t) :
    ∃ u, exec i s = .next u ∧ execAll r u = .next t := by
  unfold execAll at h
  split at h
  · next u hu => exact ⟨u, hu, h⟩
  · cases h
  · cases h

theorem rsel_of_runsSwap (hr : RunsSwap d i s) (h : exec i s = .next t) :
    (t.half d).rsel = (s.half d).swap.rsel := by
  obtain ⟨rfl, hc⟩ | ⟨rfl, he⟩ := hr
  · rw [exec_swap_of_unconfigured hc] at h
    cases h
    rw [half_respond, half_setHalf_same]
  · rw [exec_oncomp_of_enabled he] at h
    cases h
    rw [half_quiet, half_setHalf_same, handleCompletion_rsel]

theorem rsel_of_not_runsSwap (hr : ¬ RunsSwap d i s) (hi : i ≠ .reset) (h : exec i s = .next t) :
    (t.half d).rsel = (s.half d).rsel := by
  obtain hkept | hswap | honcomp | hreset := (exec_halfEffect h d).rsel_eq
  · exact hkept
  · exact absurd (.inl hswap) hr
  · exact absurd (.inr honcomp) hr
  · exact absurd hreset hi

/-- An operation but RESET exchanges the roles once for each effective swap it makes: once or not at all. -/
theorem rsel_exec (h : exec i s = .next t) (hi : i ≠ .reset) :
    (t.half d).rsel = otherSlot^[effectiveSwaps d [i] s] (s.half d).rsel := by
  rw [effectiveSwaps_singleton h]
  by_cases hr : RunsSwap d i s
  · rw [rsel_of_runsSwap hr h, swap_rsel]
    by_cases hp : (s.half d).pend = true <;> simp [hr, hp]
  · simp [rsel_of_not_runsSwap hr hi h, hr]

end

/-- A sequence of operations without RESET exchanges the roles once for each effective swap. -/
theorem rsel_execAll {d : Dir} {is : List Instr} {s t : State} (hr : .reset ∉ is) (h : execAll is s = .next t) :
    (t.half d).rsel = otherSlot^[effectiveSwaps d is s] (s.half d).rsel := by
  induction is generalizing s with
  | nil => cases h; rfl
  | cons i r ih =>
    obtain ⟨hi, hr⟩ := List.ne_and_not_mem_of_not_mem_cons hr
    obtain ⟨u, hu, hrest⟩ := execAll_cons_eq_next h
    rw [effectiveSwaps_cons hu, Nat.add_comm, Function.iterate_add_apply, ← rsel_exec hu (Ne.symm hi), ih hr hrest]

theorem otherSlot_involutive : Function.Involutive otherSlot := otherSlot_otherSlot

/-- Settles O25: exchanging the roles is an involution, so only the parity of the count matters. -/
theorem effectiveSwapsAlternateRoles : Obligations.EffectiveSwapsAlternateRoles := by
  intro is s t d ha hr h
  rw [rsel_execAll hr h, ha]
  split
  · next heven => rw [otherSlot_involutive.iterate_even (Nat.even_iff.mpr heven), id]
  · next hodd => rw [otherSlot_involutive.iterate_odd (Nat.odd_iff.mpr (Nat.mod_two_ne_zero.mp hodd)), otherSlot]

end Sys2Proof.Machine
end

section
/-! PROOFS. The Transfer Engine operations (family `41_transfer_engine.md`), case by case: CLAIM, CONFIG and START in the
order of their checks (R131 to R133, R197), BEAT enabled and not (R134, R138), and the completion handler (R135). -/

namespace Sys2Proof.Machine

section
variable {s : State} {d : Dir}

/- CLAIM (R131). -/

theorem exec_claim_of_fatal (hf : s.fatal = true) : exec (.claim d) s = .next (s.raise .errFatal) := if_pos hf

theorem exec_claim_of_not_free (hf : s.fatal = false) (hc : (s.half d).cst ≠ .free) :
    exec (.claim d) s = .next (s.raise .errState) := by
  simp [exec, execClaim, hf, hc]

theorem exec_claim_of_no_id (hf : s.fatal = false) (hc : (s.half d).cst = .free) (hp : s.poolFree = []) :
    exec (.claim d) s = .next (State.raise { s with fatal := true } .errNores) := by
  have hdraw := (drawId_eq_none s.poolFree s.oracle.draw).mpr hp
  simp [exec, execClaim, hf, hc, hdraw]

/-- CLAIM of a FREE channel takes the id the oracle draws. -/
theorem exec_claim_of_draw (hf : s.fatal = false) (hc : (s.half d).cst = .free) {id : ResId}
    (hid : drawId s.poolFree s.oracle.draw = some id) :
    exec (.claim d) s = .next (({ s with poolFree := s.poolFree.filter (· ≠ id) }.setHalf d
      { s.half d with id := some id, cst := .claimed }).respond .ok (BitVec.ofNat 32 id.val)) := by
  simp [exec, execClaim, hf, hc, hid]

end

/-- Settles O26: one equation per check, and a draw from a pool that is not empty is one of its ids. -/
theorem claimTakesOneFreeId : Obligations.ClaimTakesOneFreeId := by
  refine fun s d => ⟨exec_claim_of_fatal, exec_claim_of_not_free, exec_claim_of_no_id, fun hf hc hp => ?_⟩
  obtain ⟨id, hid⟩ := Option.ne_none_iff_exists'.mp (mt (drawId_eq_none s.poolFree s.oracle.draw).mp hp)
  refine ⟨id, drawId_mem hid, ?_⟩
  rw [exec_claim_of_draw hf hc hid, respond_setHalf]
  rfl

/-- Settles O27: every free id is drawn by some answer of the oracle, and CLAIM takes the one drawn. -/
theorem claimMayDrawAnyFreeId : Obligations.ClaimMayDrawAnyFreeId := by
  intro s d id hf hc hid
  obtain ⟨k, hk⟩ := drawId_onto hid
  have hc' : (State.half { s with oracle := { s.oracle with draw := k } } d).cst = .free := by rw [half_mk, hc]
  refine ⟨k, _, exec_claim_of_draw (s := { s with oracle := { s.oracle with draw := k } }) hf hc' hk, ?_, rfl⟩
  rw [half_respond, half_setHalf_same]

section
variable {s : State} {d : Dir} {r : DevDir} {sl : Slot} {k : Index}

/- CONFIG (R132) and START (R133). -/

theorem exec_config_of_fatal (hf : s.fatal = true) : exec (.config d r sl k) s = .next (s.raise .errFatal) := if_pos hf

theorem exec_config_of_not_claimed (hf : s.fatal = false) (hc : (s.half d).cst ≠ .claimed) :
    exec (.config d r sl k) s = .next (s.raise .errState) := by
  simp [exec, execConfig, hf, hc]

theorem exec_config_of_bad_args (hf : s.fatal = false) (hc : (s.half d).cst = .claimed)
    (ha : ¬ configArgsOk s.params.n d (s.half d) r sl k = true) :
    exec (.config d r sl k) s = .next (s.raise .errArg) := by
  simp [exec, execConfig, hf, hc, ha]

theorem exec_config_of_args (hf : s.fatal = false) (hc : (s.half d).cst = .claimed)
    (ha : configArgsOk s.params.n d (s.half d) r sl k = true) :
    exec (.config d r sl k) s = .next ((s.setHalf d { s.half d with
      dirn := r, addr := BitVec.ofNat 17 (slotBase s.params.n sl), len := k, xidx := 0, ie := true,
      cst := .idle }).respond .ok 0) := by
  simp [exec, execConfig, hf, hc, ha]

theorem exec_start_of_fatal (hf : s.fatal = true) : exec (.start d) s = .next (s.raise .errFatal) := if_pos hf

theorem exec_start_of_not_idle (hf : s.fatal = false) (hc : (s.half d).cst ≠ .idle) :
    exec (.start d) s = .next (s.raise .errState) := by
  simp [exec, execStart, hf, hc]

theorem exec_start_arms (hf : s.fatal = false) (hc : (s.half d).cst = .idle) :
    exec (.start d) s = .next ((s.setHalf d { s.half d with
      xidx := 0, cst := .armed, pend := s.params.rearmSetsPending || (s.half d).pend }).respond .ok 0) := by
  simp [exec, execStart, hf, hc]

end

theorem devDirOf_eq_ite (d : Dir) : devDirOf d = if d = .inp then .rd else .wr := by cases d <;> rfl

theorem slotBase_eq_ite (n : Nat) (sl : Slot) : slotBase n sl = if sl = .a then 0 else n := by cases sl <;> rfl

/-- Settles O28: one equation per check; the three operand checks of the statement are those of the model. -/
theorem configBindsChannel : Obligations.ConfigBindsChannel := by
  intro s d r sl k
  rw [← devDirOf_eq_ite, ← slotBase_eq_ite]
  refine ⟨exec_config_of_fatal, exec_config_of_not_claimed, fun hf hc hbad => ?badArgs, fun hf hc hr hk hsl => ?bound⟩
  case badArgs =>
    refine exec_config_of_bad_args hf hc fun ha => ?_
    obtain ⟨hr, hk, hsl⟩ := (configArgsOk_iff _ _ _ _ _ _).mp ha
    simp [hr, hk, hsl] at hbad
  case bound =>
    rw [exec_config_of_args hf hc ((configArgsOk_iff _ _ _ _ _ _).mpr ⟨hr, hk, hsl⟩), respond_setHalf]
    rfl

/-- Settles O29. -/
theorem startArmsChannel : Obligations.StartArmsChannel := by
  refine fun s d => ⟨exec_start_of_fatal, exec_start_of_not_idle, fun hf hc => ?_⟩
  have hpend : (s.params.rearmSetsPending || (s.half d).pend) =
      if s.params.rearmSetsPending then true else (s.half d).pend := by
    cases s.params.rearmSetsPending <;> rfl
  rw [exec_start_arms hf hc, respond_setHalf, hpend]
  rfl

/- BEAT (R134). -/

/-- BEAT d is enabled, the word it moves exists, and XIDX does not wrap (R45, R63, R134). -/
structure MovesWord (s : State) (d : Dir) : Prop where
  cst : (s.half d).cst = .armed
  handshake : Machine.handshake s.oracle d = true
  range : beatAddr (s.half d) < 2 * s.params.n
  index : (s.half d).xidx.toNat < 65535

section
variable {s : State}

theorem MovesWord.exec_beat {d : Dir} (h : MovesWord s d) (x : Word) : exec (.beat d x) s = s.moveWord d x :=
  exec_beat_of_enabled ((beatEnabled_iff s d).mpr ⟨h.cst, h.handshake⟩) x

theorem MovesWord.exec_beat_inp (h : MovesWord s .inp) (x : Word) :
    exec (.beat .inp x) s = .next ((s.storeWord .inp (beatAddr s.inHalf) x).countWord .inp).pulseRxPop := by
  rw [h.exec_beat, State.moveWord, if_neg (Nat.not_le.mpr h.range), if_neg (Nat.not_le.mpr h.index)]

theorem MovesWord.exec_beat_out (h : MovesWord s .out) (x : Word) :
    exec (.beat .out x) s = .next ((s.countWord .out).pushTx (s.loadWord .out (beatAddr s.outHalf))) := by
  rw [h.exec_beat, State.moveWord, if_neg (Nat.not_le.mpr h.range), if_neg (Nat.not_le.mpr h.index)]

end

/-- The fields of an ARMED channel that has counted a word: XIDX, CST and IP change, and nothing else. -/
theorem countWord_of_armed {h : Half} (hc : h.cst = .armed) :
    h.countWord = { h with
      mem := h.countWord.mem
      xidx := h.countWord.xidx
      cst := if h.countWord.xidx = h.len then .done else .armed
      ip := if h.countWord.xidx = h.len then true else h.ip } := by
  rw [countWord_half_xidx, countWord_half_mem, ← hc]
  unfold Half.countWord
  split <;> rfl

theorem xidx_succ_toNat {x : BitVec 16} (h : x.toNat < 65535) : (x + 1).toNat = x.toNat + 1 := by
  have hone : (1 : BitVec 16).toNat = 1 := rfl
  rw [BitVec.toNat_add, hone, Nat.mod_eq_of_lt (by omega)]

/-- Settles O30: the word is stored and counted. -/
theorem beatInStoresReceivedWord : Obligations.BeatInStoresReceivedWord := by
  intro s x hc hv hwf ha hx
  have hmem : (((s.storeWord .inp (beatAddr s.inHalf) x).countWord .inp).pulseRxPop).inHalf.mem =
      s.inHalf.mem.setWord s.params.byteOrder (beatAddr s.inHalf) x := countWord_half_mem _
  refine ⟨_, MovesWord.exec_beat_inp ⟨hc, hv, ha, hx⟩ x, ?readBack, fun k hk => ?otherBytes, ?canonical, ?index, ?frame⟩
  case readBack =>
    rw [State.loadWord, half_inp, hmem]
    exact word_setWord_same _ _ x hwf
  case otherBytes => rw [hmem, byte_setWord_ne _ _ x hk]
  case canonical => exact hmem ▸ setWord_wf _ _ _ x hwf
  case index => exact (congrArg BitVec.toNat (countWord_half_xidx _)).trans (xidx_succ_toNat hx)
  case frame =>
    exact congrArg (fun h => (s.setHalf .inp h).pulseRxPop)
      (countWord_of_armed (h := (s.storeWord .inp (beatAddr s.inHalf) x).inHalf) hc)

/-- Settles O31: the word is pushed and counted. -/
theorem beatOutPushesSlotWord : Obligations.BeatOutPushesSlotWord := by
  intro s x hc hv ha hx
  refine ⟨_, MovesWord.exec_beat_out ⟨hc, hv, ha, hx⟩ x, ?index, ?frame⟩
  case index => exact (congrArg BitVec.toNat (countWord_half_xidx _)).trans (xidx_succ_toNat hx)
  case frame =>
    have hmem : s.outHalf.countWord.mem = s.outHalf.mem := countWord_half_mem _
    have hcount := countWord_of_armed hc
    rw [hmem] at hcount
    exact congrArg (fun h => (s.setHalf .out h).pushTx (s.loadWord .out (beatAddr s.outHalf))) hcount

theorem exec_beat_of_disabled {s : State} {d : Dir} (h : s.beatEnabled d = false) (x : Word) :
    exec (.beat d x) s = .next s.quiet := if_neg (by simp [h])

theorem handshake_eq_ite (o : Oracle) (d : Dir) : handshake o d = if d = .inp then o.rxValid else o.txReady := by
  cases d <;> rfl

/-- Settles O33. -/
theorem disabledBeatLeavesNoTrace : Obligations.DisabledBeatLeavesNoTrace := by
  intro s d x h
  rw [← handshake_eq_ite] at h
  refine exec_beat_of_disabled ?_ x
  rw [← Bool.not_eq_true, beatEnabled_iff]
  rintro ⟨hc, hv⟩
  simp [hc, hv] at h

/- ONCOMP (R135). -/

theorem exec_oncomp_of_disabled {s : State} {d : Dir} (h : s.oncompEnabled d = false) :
    exec (.oncomp d) s = .next s.quiet := if_neg (by simp [h])

/-- The channel the completion handler leaves: swapped when due, and armed on the slot of the new roles (R130, R135). -/
theorem handleCompletion_eq (p : Params) (d : Dir) (h : Half) :
    h.handleCompletion p d = { h with
      rsel := h.swap.rsel
      pend := p.rearmSetsPending
      addr := BitVec.ofNat 17 (slotBase p.n (dmaSlot d h.swap))
      xidx := 0
      cst := .armed
      ip := false } := by
  have hslot : dmaSlot d h.acknowledge.swap = dmaSlot d h.swap :=
    dmaSlot_congr ((swap_rsel _).trans (swap_rsel h).symm)
  have hswap : h.acknowledge.swap = { h with rsel := h.swap.rsel, pend := false, ip := false } := by
    cases hp : h.pend with
    | true =>
      rw [swap_of_due (h := h.acknowledge) hp, swap_of_due hp]
      rfl
    | false =>
      rw [swap_of_not_due (h := h.acknowledge) hp, swap_of_not_due hp]
      simp [Half.acknowledge, hp]
  rw [Half.handleCompletion, Half.arm, hslot, hswap, Bool.or_false]

theorem slotBase_otherSlot_eq_ite (n : Nat) (sl : Slot) : slotBase n (otherSlot sl) = if sl = .a then n else 0 := by
  cases sl <;> rfl

/-- Settles O35. -/
theorem oncompSwapsAndRearms : Obligations.OncompSwapsAndRearms := by
  refine fun s d => ⟨fun hip hie r hr => ?enabled, fun h => exec_oncomp_of_disabled ?disabled⟩
  case enabled =>
    rw [← otherSlot_eq_ite, ← swap_rsel] at hr
    have he : s.oncompEnabled d = true := by simp [State.oncompEnabled, Half.irq, hip, hie]
    rw [exec_oncomp_of_enabled he, handleCompletion_eq, quiet_setHalf, hr]
    cases d with
    | inp =>
      rw [dmaSlot_inp, slotBase_otherSlot_eq_ite]
      rfl
    | out =>
      rw [dmaSlot_out, slotBase_eq_ite]
      rfl
  case disabled =>
    rw [State.oncompEnabled, Half.irq, Bool.and_eq_false_iff]
    exact h

end Sys2Proof.Machine
end

section
/-! PROOFS. What every operation keeps of a transfer channel: a stalled channel stays ARMED (R138), without
REARM_SETS_PENDING no swap happens again (R139), and CST moves along the transitions of R140 only. -/

namespace Sys2Proof.Machine

/- A stalled channel (R138). -/

/-- Of an ARMED channel with no interrupt pending, only a BEAT and RESET change a register. -/
theorem HalfEffect.registers_of_armed {s : State} {d : Dir} {i : Instr} {h : Half} (e : HalfEffect s d i h)
    (hc : (s.half d).cst = .armed) (hip : (s.half d).ip = false) (hb : ∀ x, i ≠ .beat d x) (hr : i ≠ .reset) :
    h = { s.half d with mem := h.mem } := by
  cases e with
  | kept | storedRole | storedSlot => rfl
  | claimed id hfree => simp [hc] at hfree
  | configured r sl k hclaimed => simp [hc] at hclaimed
  | started hidle => simp [hc] at hidle
  | swapped hunconf => exact absurd hunconf (by simp [hc, Machine.configured])
  | handled hirq => simp [Half.irq, hip] at hirq
  | receivedWord a x | sentWord x => exact absurd rfl (hb x)
  | wasReset => exact absurd rfl hr

/-- Settles O34: a BEAT is not enabled, and no other operation but RESET writes a register of the channel. -/
theorem stalledChannelStaysArmed : Obligations.StalledChannelStaysArmed := by
  intro i s t d hr hc hip hv h
  have hkept : t.half d = { s.half d with mem := (t.half d).mem } := by
    by_cases hb : ∃ x, i = .beat d x
    · obtain ⟨x, rfl⟩ := hb
      rw [exec_beat_of_disabled (by simp [State.beatEnabled, hv])] at h
      cases h
      rw [half_quiet]
    · exact (exec_halfEffect h d).registers_of_armed hc hip (not_exists.mp hb) hr
  rw [hkept]
  exact ⟨hc, rfl, hip, rfl, rfl⟩

/- The literal mode (R139). -/

/-- With REARM_SETS_PENDING false and no swap due, an operation but RESET leaves no swap due and keeps the roles. -/
theorem HalfEffect.not_due {s : State} {d : Dir} {i : Instr} {h : Half} (e : HalfEffect s d i h)
    (hp : s.params.rearmSetsPending = false) (hpend : (s.half d).pend = false) (hr : i ≠ .reset) :
    h.pend = false ∧ h.rsel = (s.half d).rsel := by
  cases e with
  | kept | claimed | configured | storedRole | storedSlot => exact ⟨hpend, rfl⟩
  | started => simp [hp, hpend]
  | swapped => simp [hpend]
  | receivedWord | sentWord => simp [hpend]
  | handled => simp [handleCompletion_eq, hp, hpend]
  | wasReset => exact absurd rfl hr

/-- A handler that finds no swap due arms the channel on the slot it worked on (R130, R135). -/
theorem Half.Inv.handleCompletion_addr {p : Params} {d : Dir} {h : Half} (hi : h.Inv p d) (hp : p.wf = true)
    (hirq : h.irq = true) (hpend : h.pend = false) : (h.handleCompletion p d).addr = h.addr := by
  obtain ⟨-, hie⟩ : h.ip = true ∧ h.ie = true := by simpa [Half.irq] using hirq
  refine BitVec.eq_of_toNat_eq ?_
  rw [hi.addr_dma (hi.ie_iff.mp hie), handleCompletion_eq, slotBase_toNat hp, swap_of_not_due hpend]

/-- Settles O37: PEND stays 0, so a handler keeps the roles and arms on the same slot. -/
theorem literalModeNeverSwapsAgain : Obligations.LiteralModeNeverSwapsAgain := by
  intro s t d i hs hp hpend hr h
  obtain ⟨hpend', hrsel⟩ := (exec_halfEffect h d).not_due hp hpend hr
  refine ⟨hpend', hrsel, fun hi => ?_⟩
  subst hi
  cases he : s.oncompEnabled d with
  | true =>
    rw [exec_oncomp_of_enabled he] at h
    cases h
    rw [half_quiet, half_setHalf_same]
    exact (hs.half d).handleCompletion_addr hs.params_wf he hpend
  | false =>
    rw [exec_oncomp_of_disabled he] at h
    cases h
    rw [half_quiet]

/- The transitions (R140). -/

/-- What an operation asks of the state, beside CST of its channel, before it changes a half (R131 to R134). -/
def GuardHolds (s : State) : Instr → Prop
  | .claim _ => s.fatal = false ∧ s.poolFree ≠ []
  | .config _ _ _ _ => s.fatal = false
  | .start _ => s.fatal = false
  | .beat d _ => handshake s.oracle d = true ∧ (s.half d).xidx.toNat < 65535
  | _ => True

/-- An operation keeps both halves, or its guard holds. -/
theorem Effect.halves_kept_or_guardHolds {s t : State} {i : Instr} (e : Effect s i t) :
    (∀ d, t.half d = s.half d) ∨ GuardHolds s i := by
  cases e with
  | answered | nothing | noResource => exact .inl (by simp)
  | claimed d id hf hc hid => exact .inr ⟨hf, List.ne_nil_of_mem hid⟩
  | configured d r sl k hf => exact .inr hf
  | started d hf => exact .inr hf
  | receivedWord x hc hv ha hx => exact .inr ⟨hv, hx⟩
  | sentWord x hc hv ha hx => exact .inr ⟨hv, hx⟩
  | swapped | storedRole | storedSlot | handled | wasReset => exact .inr trivial

/-- Counting a word keeps CST, or completes the block (R134). -/
theorem countWord_cst_cases {h : Half} (hx : h.xidx.toNat < 65535) :
    h.countWord.cst = h.cst ∨ h.countWord.cst = .done ∧ h.xidx.toNat + 1 = h.len.toNat := by
  rw [countWord_half_cst]
  split
  · next hlast => exact .inr ⟨rfl, by rw [← hlast, xidx_succ_toNat hx]⟩
  · exact .inl rfl

/-- Settles O48: effect by effect, under the guard of its operation. -/
theorem channelStateTransitions : Obligations.ChannelStateTransitions := by
  intro i s t d h
  obtain hkept | hguard := (exec_effect h).halves_kept_or_guardHolds
  · exact .inl (by rw [hkept])
  generalize hk : t.half d = k
  cases hk ▸ exec_halfEffect h d with
  | kept | storedRole | storedSlot => exact .inl rfl
  | swapped => exact .inl (swap_cst _)
  | claimed id hc => exact .inr (.inl ⟨rfl, hc, rfl, hguard⟩)
  | configured r sl k hc hr hlen hsl =>
    exact .inr (.inr (.inl ⟨⟨r, sl, k, rfl, (configArgsOk_iff _ _ _ _ _ _).mpr ⟨hr, hlen, hsl⟩⟩, hc, rfl, hguard⟩))
  | started hc => exact .inr (.inr (.inr (.inl ⟨rfl, hc, rfl, hguard⟩)))
  | receivedWord a x _ hc _ | sentWord x hc =>
    obtain ⟨hv, hx⟩ := hguard
    refine (countWord_cst_cases ?_).imp_right fun ⟨hdone, hlast⟩ =>
      .inr (.inr (.inr (.inl ⟨⟨x, rfl⟩, hc, hdone, hv, hlast⟩)))
    exact hx
  | handled hirq =>
    obtain ⟨hip, -⟩ : (s.half d).ip = true ∧ (s.half d).ie = true := by simpa [Half.irq] using hirq
    exact .inr (.inr (.inr (.inr (.inr (.inl ⟨rfl, rfl, hirq, fun hs => (hs.half d).ip_iff.mp hip⟩)))))
  | wasReset => exact .inr (.inr (.inr (.inr (.inr (.inr ⟨rfl, rfl⟩)))))

end Sys2Proof.Machine
end

section
/-! PROOFS. Blocks of words (R136, R137): what a run of BEATs of one direction leaves, by induction on the words moved,
and what the completion handler makes of a received block. -/

namespace Sys2Proof.Machine

/- Sequences of operations. -/

theorem execAll_append_of_next {is : List Instr} {s t : State} (h : execAll is s = .next t) (r : List Instr) :
    execAll (is ++ r) s = execAll r t := by
  induction is generalizing s with
  | nil => cases h; rfl
  | cons i is ih =>
    obtain ⟨u, hu, hrest⟩ := execAll_cons_eq_next h
    rw [List.cons_append, execAll_cons_of_next hu, ih hrest]

theorem execAll_concat {is : List Instr} {i : Instr} {s t u : State} (h : execAll is s = .next t)
    (hi : exec i t = .next u) : execAll (is ++ [i]) s = .next u := by
  rw [execAll_append_of_next h, execAll_cons_of_next hi]
  rfl

/- Words moved. -/

/-- The invariants give an ARMED channel whose handshake is asserted everything a word move asks for (R45, R134). -/
theorem State.Inv.movesWord {s : State} {d : Dir} (hs : s.Inv) (hc : (s.half d).cst = .armed)
    (hv : handshake s.oracle d = true) : MovesWord s d := by
  obtain ⟨haddr, hx⟩ := (hs.half d).beatAddr_eq hc
  have hbase := slotBase_le s.params.n (dmaSlot d (s.half d))
  obtain ⟨⟨-, hn⟩, -⟩ := (Params.wf_iff _).mp hs.params_wf
  exact ⟨hc, hv, by omega, by omega⟩

/-- At the start of a block the next word is word 0 of the channel's slot (R44, R134). -/
theorem Half.Inv.beatAddr_at_start {p : Params} {d : Dir} {h : Half} (hi : h.Inv p d) (hc : h.cst = .armed)
    (hx : h.xidx = 0) : beatAddr h = slotBase p.n (dmaSlot d h) := by
  obtain ⟨haddr, -⟩ := hi.beatAddr_eq hc
  rw [haddr, hx]
  rfl

/-- A complete block holds its interrupt line at 1 (R42, R43). -/
theorem Half.Inv.irq_of_done {p : Params} {d : Dir} {h : Half} (hi : h.Inv p d) (hc : h.cst = .done) :
    h.irq = true := by
  rw [Half.irq, hi.ip_iff.mpr hc, hi.ie_iff.mpr (by rw [hc]; rfl)]
  rfl

/-- `t` is reached from `s` by `k` words that the channel of direction `d` moved within one block: what that leaves, and
what it counts. -/
structure WordsMoved (s : State) (d : Dir) (k : Nat) (t : State) : Prop where
  inv : t.Inv
  params : t.params = s.params
  oracle : t.oracle = s.oracle
  other : t.half (otherDir d) = s.half (otherDir d)
  rsel : (t.half d).rsel = (s.half d).rsel
  addr : (t.half d).addr = (s.half d).addr
  xidx : (t.half d).xidx.toNat = (s.half d).xidx.toNat + k
  cst : (t.half d).cst = if (s.half d).xidx.toNat + k = s.params.n then .done else .armed

section
variable {s t u : State} {d : Dir}

theorem WordsMoved.refl (hs : s.Inv) (hc : (s.half d).cst = .armed) : WordsMoved s d 0 s where
  inv := hs
  params := rfl
  oracle := rfl
  other := rfl
  rsel := rfl
  addr := rfl
  xidx := rfl
  cst := by rw [Nat.add_zero, if_neg (Nat.ne_of_lt ((hs.half d).xidx_armed hc)), hc]

theorem WordsMoved.trans {j k : Nat} (e : WordsMoved s d j t) (f : WordsMoved t d k u) :
    WordsMoved s d (j + k) u where
  inv := f.inv
  params := f.params.trans e.params
  oracle := f.oracle.trans e.oracle
  other := f.other.trans e.other
  rsel := f.rsel.trans e.rsel
  addr := f.addr.trans e.addr
  xidx := by rw [f.xidx, e.xidx, Nat.add_assoc]
  cst := by rw [f.cst, e.xidx, e.params, Nat.add_assoc]

theorem WordsMoved.beatAddr_eq {k : Nat} (e : WordsMoved s d k t) :
    beatAddr (t.half d) = beatAddr (s.half d) + k := by
  rw [beatAddr, beatAddr, e.addr, e.xidx, Nat.add_assoc]

/-- Before the last word of the block the next word can be moved. -/
theorem WordsMoved.movesWord {k : Nat} (e : WordsMoved s d k t) (hk : (s.half d).xidx.toNat + k < s.params.n)
    (hv : handshake s.oracle d = true) : MovesWord t d := by
  refine e.inv.movesWord ?_ (e.oracle ▸ hv)
  rw [e.cst, if_neg (Nat.ne_of_lt hk)]

/-- A BEAT that counts a word has moved one. -/
theorem MovesWord.wordsMoved (hm : MovesWord s d) (hs : s.Inv) {x : Word} (h : exec (.beat d x) s = .next t)
    {m : Memory} (hhalf : t.half d = { s.half d with mem := m }.countWord) : WordsMoved s d 1 t := by
  obtain ⟨hparams, horacle, -⟩ := (exec_effect h).environment_eq
  have hlen : (s.half d).len.toNat = s.params.n := (hs.half d).len_eq (by simp [hm.cst, configured])
  have hlast : (s.half d).xidx + 1 = (s.half d).len ↔ (s.half d).xidx.toNat + 1 = s.params.n := by
    rw [← BitVec.toNat_inj, xidx_succ_toNat hm.index, hlen]
  exact
    { inv := exec_keeps_inv hs h
      params := hparams
      oracle := horacle
      other := (directionsAreIndependent _ s t d (s.half d) rfl h).1
      rsel := by rw [hhalf, countWord_half_rsel]
      addr := by rw [hhalf, countWord_half_addr]
      xidx := by rw [hhalf, countWord_half_xidx, xidx_succ_toNat hm.index]
      cst := by simp only [hhalf, countWord_half_cst, hlast, hm.cst] }

end

/- The output block (R137). -/

/-- One BEAT OUT sends the word at ADDR + XIDX. -/
theorem MovesWord.sends {s : State} (hm : MovesWord s .out) (hs : s.Inv) (x : Word) :
    ∃ t, exec (.beat .out x) s = .next t ∧ WordsMoved s .out 1 t ∧
      t.txlog = s.txlog ++ [s.loadWord .out (beatAddr s.outHalf)] ∧ t.outHalf.mem = s.outHalf.mem := by
  have h := hm.exec_beat_out x
  refine ⟨_, h, hm.wordsMoved hs h (m := s.outHalf.mem) ?_, ?_, countWord_mem s .out⟩
  · rw [half_pushTx, half_countWord_same]
    rfl
  · rw [pushTx_txlog, countWord_txlog]

/-- `k` BEATs OUT within one block send the `k` words from ADDR + XIDX on. -/
theorem execAll_txBlock {s : State} (hs : s.Inv) (hc : s.outHalf.cst = .armed) (hv : s.oracle.txReady = true) {k : Nat}
    (hk : s.outHalf.xidx.toNat + k ≤ s.params.n) :
    ∃ t, execAll (txBlock k) s = .next t ∧ WordsMoved s .out k t ∧
      t.txlog = s.txlog ++ (List.range k).map (fun i => s.loadWord .out (beatAddr s.outHalf + i)) ∧
      t.outHalf.mem = s.outHalf.mem := by
  induction k with
  | zero => exact ⟨s, rfl, .refl hs hc, by simp, rfl⟩
  | succ k ih =>
    obtain ⟨t, ht, moved, htx, hmem⟩ := ih (by omega)
    obtain ⟨u, hu, last, hutx, humem⟩ := (moved.movesWord hk hv).sends moved.inv 0
    have haddr : beatAddr t.outHalf = beatAddr s.outHalf + k := moved.beatAddr_eq
    have hword : t.loadWord .out (beatAddr t.outHalf) = s.loadWord .out (beatAddr s.outHalf + k) := by
      rw [haddr]
      exact loadWord_congr (d := .out) hmem moved.params _
    refine ⟨u, ?_, moved.trans last, ?_, humem.trans hmem⟩
    · rw [txBlock, List.replicate_succ']
      exact execAll_concat ht hu
    · rw [hutx, htx, hword, List.range_succ, List.map_append, List.append_assoc]
      rfl

/-- Settles O40: a block from XIDX = 0 is the N words from the base of the slot, which for OUT is the reading one. -/
theorem outputBlockIsReadingSlot : Obligations.OutputBlockIsReadingSlot := by
  intro s hs hc hx hv
  have hzero : s.outHalf.xidx.toNat = 0 := congrArg BitVec.toNat hx
  obtain ⟨t, ht, moved, htx, hmem⟩ := execAll_txBlock hs hc hv (k := s.params.n) (by omega)
  have haddr : beatAddr s.outHalf = slotBase s.params.n s.outHalf.reading := (hs.half .out).beatAddr_at_start hc hx
  have hdone : t.outHalf.cst = .done := by
    rw [← half_out, moved.cst, if_pos (by rw [half_out]; omega)]
  rw [haddr] at htx
  exact ⟨t, ht, htx, hdone, (moved.inv.half .out).irq_of_done hdone, hmem, moved.other⟩

/- The input block (R136). -/

/-- One BEAT IN stores the received word at ADDR + XIDX. -/
theorem MovesWord.receives {s : State} (hm : MovesWord s .inp) (hs : s.Inv) (x : Word) :
    ∃ t, exec (.beat .inp x) s = .next t ∧ WordsMoved s .inp 1 t ∧
      ∀ a, t.loadWord .inp a = if a = beatAddr s.inHalf then x else s.loadWord .inp a := by
  have h := hm.exec_beat_inp x
  refine ⟨_, h, hm.wordsMoved hs h
    (m := s.inHalf.mem.setWord s.params.byteOrder (beatAddr s.inHalf) x) ?_, fun a => ?_⟩
  · rw [half_pulseRxPop, half_countWord_same, half_storeWord_same]
    rfl
  · exact (loadWord_congr (s := s.storeWord .inp (beatAddr s.inHalf) x) (countWord_mem _ .inp) (by simp) a).trans
      (loadWord_storeWord (hs.half .inp).mem_wf _ _ x)

/-- BEATs IN within one block store the received words, in order, from ADDR + XIDX on, and no other word. -/
theorem execAll_rxBlock {s : State} (hs : s.Inv) (hc : s.inHalf.cst = .armed) (hv : s.oracle.rxValid = true)
    {xs : List Word} (hk : s.inHalf.xidx.toNat + xs.length ≤ s.params.n) :
    ∃ t, execAll (rxBlock xs) s = .next t ∧ WordsMoved s .inp xs.length t ∧
      (∀ i, (h : i < xs.length) → t.loadWord .inp (beatAddr s.inHalf + i) = xs[i]) ∧
      ∀ a, a < beatAddr s.inHalf ∨ beatAddr s.inHalf + xs.length ≤ a → t.loadWord .inp a = s.loadWord .inp a := by
  induction xs using List.reverseRecOn with
  | nil => exact ⟨s, rfl, .refl hs hc, by simp, fun _ _ => rfl⟩
  | append_singleton xs x ih =>
    rw [List.length_append, List.length_singleton] at hk
    obtain ⟨t, ht, moved, hin, hout⟩ := ih (by omega)
    obtain ⟨u, hu, last, hload⟩ := (moved.movesWord hk hv).receives moved.inv x
    have haddr : beatAddr t.inHalf = beatAddr s.inHalf + xs.length := moved.beatAddr_eq
    rw [haddr] at hload
    refine ⟨u, ?_, ?_, fun i hi => ?_, fun a ha => ?_⟩
    · rw [rxBlock, List.map_append]
      exact execAll_concat ht hu
    · rw [List.length_append]
      exact moved.trans last
    · rw [List.getElem_append]
      split
      · next hold => rw [hload, if_neg (by omega), hin i hold]
      · next hnew =>
        rw [List.length_append, List.length_singleton] at hi
        rw [hload, if_pos (by omega), List.getElem_singleton]
    · rw [List.length_append, List.length_singleton] at ha
      rw [hload, if_neg (by omega), hout a (by omega)]

/-- The handler of a completed block, with PEND due as in every state DONE, exchanges the roles and keeps the words. -/
theorem exec_oncomp_of_done {s : State} {d : Dir} (hs : s.Inv) (hr : s.params.rearmSetsPending = true)
    (hc : (s.half d).cst = .done) :
    ∃ t, exec (.oncomp d) s = .next t ∧ t.Inv ∧ (t.half d).cst = .armed ∧
      (t.half d).rsel = otherSlot (s.half d).rsel ∧ t.params = s.params ∧
      t.half (otherDir d) = s.half (otherDir d) ∧ ∀ a, t.loadWord d a = s.loadWord d a := by
  have hi := hs.half d
  have hpend : (s.half d).pend = true := hi.pend_due hr (.inr hc)
  have h := exec_oncomp_of_enabled (hi.irq_of_done hc)
  refine ⟨_, h, exec_keeps_inv hs h, ?_, ?_, by simp, by simp, fun a => loadWord_congr ?_ (by simp) a⟩
  · rw [half_quiet, half_setHalf_same, handleCompletion_eq]
  · rw [half_quiet, half_setHalf_same, handleCompletion_rsel, swap_rsel, if_pos hpend]
  · rw [half_quiet, half_setHalf_same, handleCompletion_eq]

/-- Settles O39: the block fills the writing slot of IN, and the handler makes that the reading slot. -/
theorem inputBlockBecomesReadable : Obligations.InputBlockBecomesReadable := by
  intro s xs hs hr hc hx hv hlen
  have hzero : s.inHalf.xidx.toNat = 0 := congrArg BitVec.toNat hx
  obtain ⟨t, ht, moved, hin, hout⟩ := execAll_rxBlock hs hc hv (xs := xs) (by omega)
  have hbase : beatAddr s.inHalf = slotBase s.params.n (otherSlot s.inHalf.rsel) :=
    (hs.half .inp).beatAddr_at_start hc hx
  have hdone : (t.half .inp).cst = .done := by rw [moved.cst, if_pos (by rw [half_inp]; omega)]
  obtain ⟨u, hu, hinv, harmed, hrsel, hparams, hother, hwords⟩ :=
    exec_oncomp_of_done moved.inv (by rw [moved.params, hr]) hdone
  have hn : u.params.n = s.params.n := by rw [hparams, moved.params]
  have hreading : u.inHalf.rsel = otherSlot s.inHalf.rsel := hrsel.trans (congrArg otherSlot moved.rsel)
  refine ⟨u, execAll_concat ht hu, hinv, harmed, hother.trans moved.other, fun i hi => ⟨?readable, ?free⟩⟩
  case readable =>
    have hword : u.loadWord .inp (wordAddr s.params.n (otherSlot s.inHalf.rsel) i) = xs[i.toNat] := by
      rw [hwords, wordAddr, ← hbase, hin i.toNat hi]
    rw [exec_ldr_eq_exec_lds, half_inp, reading_eq, hreading, exec_lds_of_lt hn (by omega), hword]
    rfl
  case free =>
    have hout_of_block : wordAddr s.params.n s.inHalf.rsel i < beatAddr s.inHalf ∨
        beatAddr s.inHalf + xs.length ≤ wordAddr s.params.n s.inHalf.rsel i := by
      rw [hbase, wordAddr, hlen]
      cases s.inHalf.rsel with
      | a => exact .inl (by simp only [otherSlot, slotBase_a, slotBase_b]; omega)
      | b => exact .inr (by simp only [otherSlot, slotBase_a, slotBase_b]; omega)
    rw [writing_eq, hreading, otherSlot_otherSlot, hn, reading_eq, hwords, hout _ hout_of_block]

end Sys2Proof.Machine
end

section
/-! PROOFS. NOP and the status reads (family `42_status_and_control.md`): what each read answers (R170 to R174), bit by bit
where the answer is assembled from fields, and that no read can be told from no step at all (R175). -/

namespace Sys2Proof.Machine

/- A read only responds, and a response is forgotten by the next step. -/

theorem loadSlot_eq_respond (s : State) (d : Dir) (sl : Slot) (i : Index) :
    ∃ c v, s.loadSlot d sl i = s.respond c v := by
  obtain ⟨_, h⟩ | ⟨_, h⟩ := loadSlot_cases s d sl i
  · exact ⟨.errArg, 0, h⟩
  · exact ⟨.ok, _, h⟩

theorem exec_of_isRead {i : Instr} (hi : isRead i = true) (s : State) : ∃ c v, exec i s = .next (s.respond c v) := by
  cases i with
  | nop | rdints | rdstat | rdaddr | rdlen | rdptr | wrptr => exact ⟨_, _, rfl⟩
  | ldr d k =>
    obtain ⟨c, v, h⟩ := loadSlot_eq_respond s d (s.half d).reading k
    exact ⟨c, v, congrArg _ h⟩
  | lds d sl k =>
    obtain ⟨c, v, h⟩ := loadSlot_eq_respond s d sl k
    exact ⟨c, v, congrArg _ h⟩
  | claim | config | start | swap | stw | sts | beat | oncomp | reset => cases hi

/-- No operation reads the output signals, and every outcome of one drives them anew. Once the direction is known, the
two sides are the same term. -/
theorem exec_setOut (i : Instr) (s : State) (u : Outputs) : exec i { s with out := u } = exec i s := by
  cases i with
  | nop | rdints | reset => rfl
  | claim d | config d | start d | swap d | rdptr d | wrptr d | ldr d | stw d | lds d | sts d | rdstat d | rdaddr d
  | rdlen d | beat d | oncomp d => cases d <;> rfl

/-- Settles O14: a read only responds, and what any operation does next does not depend on the response. -/
theorem readsChangeNothing : Obligations.ReadsChangeNothing := by
  intro i s hi
  obtain ⟨c, v, h⟩ := exec_of_isRead hi s
  exact ⟨s.respond c v, h, rfl, fun j => exec_setOut j s _⟩

/-- Settles O9. -/
theorem nopAnswersOk : Obligations.NopAnswersOk := fun _ => rfl

/- RDINTS: the word of the two interrupt lines. -/

section
variable (irqIn irqOut : Bool)

theorem getLsbD_rdintsWord_line (j : Fin 2) : (rdintsWord irqIn irqOut).getLsbD j = ![irqIn, irqOut] j := by
  simp only [rdintsWord, BitVec.getLsbD_append, BitVec.getLsbD_ofBool]
  fin_cases j <;> rfl

theorem rdintsWord_reserved : (rdintsWord irqIn irqOut).extractLsb' 2 30 = 0 := by
  simp (disch := decide) only [rdintsWord, BitVec.extractLsb'_append_eq_of_le]
  exact BitVec.extractLsb'_eq_self

end

/-- Settles O10. -/
theorem rdintsReturnsIrqLines : Obligations.RdintsReturnsIrqLines := fun s =>
  have line := getLsbD_rdintsWord_line s.inHalf.irq s.outHalf.irq
  ⟨_, rfl, line 0, line 1, rdintsWord_reserved _ _⟩

/- RDSTAT: the fields of the status word (R172). -/

section
variable (fatal : Bool) (h : Half)

theorem rdstatWord_cst : (rdstatWord fatal h).extractLsb' 0 3 = h.cst.code := BitVec.extractLsb'_append_eq_right

/-- Bits 8:3 are six flags. -/
theorem getLsbD_rdstatWord_flag (j : Fin 6) :
    (rdstatWord fatal h).getLsbD (3 + j) = ![h.pend, h.rsel.bit, h.ip, h.ie, h.dirn.bit, fatal] j := by
  simp only [rdstatWord, BitVec.getLsbD_append, BitVec.getLsbD_ofBool]
  fin_cases j <;> rfl

theorem rdstatWord_reserved : (rdstatWord fatal h).extractLsb' 9 7 = 0 := by
  simp (disch := decide) only [rdstatWord, BitVec.extractLsb'_append_eq_of_le]
  exact BitVec.extractLsb'_append_eq_right

theorem rdstatWord_xidx : (rdstatWord fatal h).extractLsb' 16 16 = h.xidx := by
  simp (disch := decide) only [rdstatWord, BitVec.extractLsb'_append_eq_of_le]
  exact BitVec.extractLsb'_eq_self

end

theorem slot_bit_eq_decide (sl : Slot) : sl.bit = decide (sl = .b) := by cases sl <;> rfl

theorem devDir_bit_eq_decide (r : DevDir) : r.bit = decide (r = .wr) := by cases r <;> rfl

/-- Settles O11. -/
theorem rdstatReturnsStatusFields : Obligations.RdstatReturnsStatusFields := by
  intro s d
  have flag := getLsbD_rdstatWord_flag s.fatal (s.half d)
  refine ⟨_, rfl, ?cst, flag 0, ?rsel, flag 2, flag 3, ?dirn, flag 5, rdstatWord_reserved _ _, rdstatWord_xidx _ _⟩
  case cst =>
    rw [rdstatWord_cst]
    cases (s.half d).cst <;> rfl
  case rsel => exact (flag 1).trans (slot_bit_eq_decide _)
  case dirn => exact (flag 4).trans (devDir_bit_eq_decide _)

/- RDADDR and RDLEN: a register narrower than a word keeps its number (R173, R174). -/

/-- Settles O12. -/
theorem rdaddrReturnsAddr : Obligations.RdaddrReturnsAddr :=
  fun _ _ => ⟨_, rfl, BitVec.toNat_setWidth_of_le (by decide)⟩

/-- Settles O13. -/
theorem rdlenReturnsLen : Obligations.RdlenReturnsLen :=
  fun _ _ => ⟨_, rfl, BitVec.toNat_setWidth_of_le (by decide)⟩

end Sys2Proof.Machine
end

section
/-! PROOFS. How a command ends and what an error leaves (family `60_exceptions.md`, section 1): every host command answers
(R190), an error changes nothing but that ERR_NORES sets FATAL (R191), and FATAL stops the startup commands only (R193). -/

namespace Sys2Proof.Machine

/- Responses (R190). -/

theorem exec_next_of_host {i : Instr} (hi : i.isEvent = false) (s : State) : ∃ t, exec i s = .next t := by
  cases i with
  | nop | rdints | rdptr | wrptr | rdstat | rdaddr | rdlen | ldr | lds | stw | sts => exact ⟨_, rfl⟩
  | claim | config | start | swap =>
    simp only [exec, execClaim, execConfig, execStart, execSwap]
    repeat' split
    all_goals exact ⟨_, rfl⟩
  | beat | oncomp | reset => cases hi

/-- An operation responds when it is a host command, and then pulses nothing; an event has no response. -/
theorem Effect.out_cases {s t : State} {i : Instr} (e : Effect s i t) :
    (i.isEvent = false ∧ ∃ r, t.out = ⟨some r, false, none⟩) ∨ (i.isEvent = true ∧ t.out.resp = none) := by
  cases e with
  | answered _ c v host => exact .inl ⟨host, _, rfl⟩
  | nothing _ event => exact .inr ⟨event, rfl⟩
  | noResource | claimed | configured | started | swapped | storedRole | storedSlot => exact .inl ⟨rfl, _, rfl⟩
  | receivedWord | sentWord | handled | wasReset => exact .inr ⟨rfl, rfl⟩

/-- Settles O45: no host command faults, so it has an effect, and every effect of a host command is a response. -/
theorem hostCommandsAlwaysAnswer : Obligations.HostCommandsAlwaysAnswer := by
  intro i s
  refine ⟨fun hi => ?host, fun hi t h => ?event⟩
  case host =>
    obtain ⟨t, h⟩ := exec_next_of_host hi s
    obtain ⟨-, r, hr⟩ | ⟨hev, -⟩ := (exec_effect h).out_cases
    · exact ⟨t, r, h, hr⟩
    · simp [hi] at hev
  case event =>
    obtain ⟨hhost, -⟩ | ⟨-, hnone⟩ := (exec_effect h).out_cases
    · simp [hi] at hhost
    · exact hnone

/- Errors (R191). -/

/-- An operation that answers an error raised it, from the state it found or, when it is ERR_NORES, with FATAL set. -/
theorem Effect.eq_raise_of_error {s t : State} {i : Instr} (e : Effect s i t) {r : Response}
    (hr : t.out.resp = some r) (hc : r.code ≠ .ok) :
    (r.code ≠ .errNores ∧ t = s.raise r.code) ∨
    (r.code = .errNores ∧ t = State.raise { s with fatal := true } r.code) := by
  cases e with
  | answered _ c v _ err =>
    cases hr
    obtain ⟨rfl, hne⟩ := err hc
    exact .inl ⟨hne, rfl⟩
  | noResource =>
    cases hr
    exact .inr ⟨rfl, rfl⟩
  | claimed | configured | started | swapped | storedRole | storedSlot =>
    cases hr
    exact absurd rfl hc
  | nothing | receivedWord | sentWord | handled | wasReset => cases hr

/-- Settles O46: raising an error answers 0 and drives the outputs only. -/
theorem errorsChangeNothing : Obligations.ErrorsChangeNothing := by
  intro i s t r h hr hc
  obtain ⟨hne, rfl⟩ | ⟨heq, rfl⟩ := (exec_effect h).eq_raise_of_error hr hc
  · exact ⟨congrArg Response.rdata (Option.some.inj hr).symm, fun _ => rfl, fun heq => absurd heq hne⟩
  · exact ⟨congrArg Response.rdata (Option.some.inj hr).symm, fun hne => absurd heq hne, fun _ => rfl⟩

/- FATAL (R193). -/

/-- The state with another value of FATAL. -/
def State.setFatal (b : Bool) (s : State) : State := { s with fatal := b }

section
variable (b : Bool) (s : State) (d : Dir)

@[simp] theorem half_setFatal : (s.setFatal b).half d = s.half d := half_mk ..

theorem loadSlot_setFatal (sl : Slot) (k : Index) :
    (s.setFatal b).loadSlot d sl k = (s.loadSlot d sl k).setFatal b := by
  unfold State.loadSlot
  rw [apply_ite (State.setFatal b)]
  cases d <;> rfl

theorem storeSlot_setFatal (sl : Slot) (k : Index) (x : Word) :
    (s.setFatal b).storeSlot d sl k x = (s.storeSlot d sl k x).setFatal b := by
  unfold State.storeSlot
  rw [apply_ite (State.setFatal b)]
  cases d <;> rfl

theorem execSwap_setFatal : execSwap d (s.setFatal b) = mapNext (·.setFatal b) (execSwap d s) := by
  rw [execSwap, execSwap, mapNext_ite, half_setFatal]
  cases d <;> rfl

theorem execBeat_setFatal (x : Word) : execBeat d x (s.setFatal b) = mapNext (·.setFatal b) (execBeat d x s) := by
  unfold execBeat State.moveWord
  simp only [mapNext_ite]
  cases d <;> rfl

theorem execOncomp_setFatal : execOncomp d (s.setFatal b) = mapNext (·.setFatal b) (execOncomp d s) := by
  rw [execOncomp, execOncomp, mapNext_ite]
  cases d <;> rfl

end

/-- The operations that read or write FATAL: the startup commands, the read of the bit, and RESET (R34, R193). -/
def usesFatal : Instr → Bool
  | .claim _ | .config _ _ _ _ | .start _ | .rdstat _ | .reset => true
  | _ => false

/-- Any other operation does the same whatever FATAL holds, and hands it on. -/
theorem exec_setFatal {i : Instr} (hi : usesFatal i = false) (b : Bool) (s : State) :
    exec i (s.setFatal b) = mapNext (·.setFatal b) (exec i s) := by
  cases i with
  | nop | rdints => rfl
  | rdptr d | wrptr d | rdaddr d | rdlen d => cases d <;> rfl
  | ldr d k => exact (congrArg _ (loadSlot_setFatal b s d _ k)).trans (by rw [half_setFatal]; rfl)
  | lds d sl k => exact congrArg _ (loadSlot_setFatal b s d sl k)
  | stw d k x => exact (congrArg _ (storeSlot_setFatal b s d _ k x)).trans (by rw [half_setFatal]; rfl)
  | sts d sl k x => exact congrArg _ (storeSlot_setFatal b s d sl k x)
  | swap d => exact execSwap_setFatal b s d
  | beat d x => exact execBeat_setFatal b s d x
  | oncomp d => exact execOncomp_setFatal b s d
  | claim | config | start | rdstat | reset => cases hi

/-- Settles O52. -/
theorem fatalStopsOnlyStartup : Obligations.FatalStopsOnlyStartup := by
  intro i s t b hi hr h
  have huses : usesFatal i = false := by
    cases i with
    | claim d => exact absurd rfl (hi d).1
    | start d => exact absurd rfl (hi d).2.1
    | rdstat d => exact absurd rfl (hi d).2.2.1
    | config d r sl k => exact absurd rfl ((hi d).2.2.2 r sl k)
    | reset => exact absurd rfl hr
    | _ => rfl
  exact (exec_setFatal huses b s).trans (congrArg (mapNext (·.setFatal b)) h)

end Sys2Proof.Machine
end

section
/-! PROOFS. The completion interrupts (family `60_exceptions.md`, section 2): the two handlers commute (R201), and in a
weakly fair run (R200; log 14) a raised interrupt is handled and an ARMED channel completes its block. -/

namespace Sys2Proof.Machine

/- The two handlers (R201). -/

/-- The state a completion handler that is taken leaves (R135). -/
def State.handled (s : State) (d : Dir) : State := (s.setHalf d ((s.half d).handleCompletion s.params d)).quiet

theorem exec_oncomp_eq_handled {s : State} {d : Dir} (h : s.oncompEnabled d = true) :
    exec (.oncomp d) s = .next (s.handled d) := exec_oncomp_of_enabled h

theorem oncompEnabled_handled_other (s : State) (d : Dir) :
    (s.handled d).oncompEnabled (otherDir d) = s.oncompEnabled (otherDir d) := by
  rw [State.oncompEnabled, State.oncompEnabled, State.handled, half_quiet, half_setHalf_other]

/-- Each handler reads and writes the half of its own direction. -/
theorem handled_comm (s : State) : (s.handled .inp).handled .out = (s.handled .out).handled .inp := rfl

/-- Settles O38. -/
theorem handlersCommute : Obligations.HandlersCommute := by
  intro s hin hout
  have hin' : (s.handled .out).oncompEnabled .inp = true := (oncompEnabled_handled_other s .out).trans hin
  have hout' : (s.handled .inp).oncompEnabled .out = true := (oncompEnabled_handled_other s .inp).trans hout
  exact ⟨s.handled .inp, s.handled .out, (s.handled .inp).handled .out, exec_oncomp_eq_handled hin,
    exec_oncomp_eq_handled hout', exec_oncomp_eq_handled hout, handled_comm s ▸ exec_oncomp_eq_handled hin'⟩

/- A raised interrupt (R199, R200). -/

/-- An interrupt line that is 1 falls at its ONCOMP and at RESET only. -/
theorem HalfEffect.irq_stays {s : State} {d : Dir} {i : Instr} {h : Half} (e : HalfEffect s d i h)
    (hirq : (s.half d).irq = true) (ho : i ≠ .oncomp d) (hr : i ≠ .reset) : h.irq = true := by
  obtain ⟨hip, hie⟩ : (s.half d).ip = true ∧ (s.half d).ie = true := by simpa [Half.irq] using hirq
  cases e with
  | kept | claimed | started | storedRole | storedSlot => exact hirq
  | configured => simp [Half.irq, hip]
  | swapped => simp [Half.irq, hip, hie]
  | receivedWord | sentWord => simp [Half.irq, countWord_half_ip, hip, hie]
  | handled => exact absurd rfl ho
  | wasReset => exact absurd rfl hr

/-- Settles O59: a line that no ONCOMP and no RESET takes down stays 1, and then fairness asks for the ONCOMP. -/
theorem interruptIsEventuallyHandled : Obligations.InterruptIsEventuallyHandled := by
  intro σ ops answers d n hrun hfair hirq
  by_contra hnever
  have hstays : ∀ m, n ≤ m → ((σ m).half d).irq = true := by
    intro m hm
    induction m, hm using Nat.le_induction with
    | base => exact hirq
    | succ m hm ih =>
      exact (exec_halfEffect (hrun m) d).irq_stays (by rwa [half_mk]) (fun ho => hnever ⟨m, hm, .inl ho, ih⟩)
        (fun hr => hnever ⟨m, hm, .inr hr, ih⟩)
  obtain ⟨m, hm, ho⟩ := (hfair d n).2 hstays
  exact hnever ⟨m, hm, .inl ho, hstays m hm⟩

/- A block (R138, R200). -/

/-- A BEAT of an ARMED channel whose handshake is asserted moves a word (R134). -/
theorem State.Inv.beat_wordsMoved {s t : State} {d : Dir} {x : Word} (hs : s.Inv) (hc : (s.half d).cst = .armed)
    (hv : handshake s.oracle d = true) (h : exec (.beat d x) s = .next t) : WordsMoved s d 1 t := by
  have hm := hs.movesWord hc hv
  obtain ⟨u, hu, hmoved⟩ : ∃ u, exec (.beat d x) s = .next u ∧ WordsMoved s d 1 u := by
    cases d with
    | inp =>
      obtain ⟨u, hu, hmoved, -⟩ := hm.receives hs x
      exact ⟨u, hu, hmoved⟩
    | out =>
      obtain ⟨u, hu, hmoved, -⟩ := hm.sends hs x
      exact ⟨u, hu, hmoved⟩
  cases h.symm.trans hu
  exact hmoved

/-- The channel of direction `d` is in the middle of a block, `k` words of which are left to move. -/
structure MidBlock (s : State) (d : Dir) (k : Nat) : Prop where
  inv : s.Inv
  cst : (s.half d).cst = .armed
  left : (s.half d).xidx.toNat + k = s.params.n

section
variable {s t : State} {d : Dir} {i : Instr} {k : Nat}

theorem MidBlock.pos (h : MidBlock s d k) : 0 < k := by
  have hlt := (h.inv.half d).xidx_armed h.cst
  have hleft := h.left
  omega

theorem MidBlock.withOracle (h : MidBlock s d k) (o : Oracle) : MidBlock { s with oracle := o } d k where
  inv := h.inv.congr rfl (fun _ => half_mk ..) rfl
  cst := by rw [half_mk, h.cst]
  left := by rw [half_mk, h.left]

/-- A BEAT moves one of the words that are left, and the last of them completes the block (R134). -/
theorem MidBlock.beat {x : Word} (h : MidBlock s d (k + 1)) (hv : handshake s.oracle d = true)
    (hbeat : exec (.beat d x) s = .next t) : (t.half d).cst = .done ∨ MidBlock t d k := by
  have hmoved := h.inv.beat_wordsMoved h.cst hv hbeat
  have hleft := h.left
  have hcst := hmoved.cst
  split at hcst
  · exact .inl hcst
  · exact .inr ⟨hmoved.inv, hcst, by rw [hmoved.xidx, hmoved.params]; omega⟩

/-- Every operation but a BEAT of the channel and RESET leaves the block as it is (R138). -/
theorem MidBlock.stays (h : MidBlock s d k) (hexec : exec i s = .next t) (hb : ∀ x, i ≠ .beat d x)
    (hr : i ≠ .reset) : MidBlock t d k := by
  have hip : (s.half d).ip = false := by simp [← Bool.not_eq_true, (h.inv.half d).ip_iff, h.cst]
  have hkept := (exec_halfEffect hexec d).registers_of_armed h.cst hip hb hr
  obtain ⟨hparams, -⟩ := (exec_effect hexec).environment_eq
  exact ⟨exec_keeps_inv h.inv hexec, by rw [hkept, ← h.cst], by rw [hkept, hparams, ← h.left]⟩

end

section
variable {σ : Nat → State} {ops : Nat → Instr} {answers : Nat → Oracle} {d : Dir} {n k : Nat}

/-- The next word of a block is eventually moved: until then the block stays as it is, so its BEAT stays enabled. -/
theorem MidBlock.next_word_moves (hmid : MidBlock (σ n) d (k + 1)) (hrun : IsRun σ ops answers)
    (hfair : WeaklyFair σ ops answers) (hv : ∀ m, n ≤ m → handshake (answers m) d = true) :
    ∃ m, n ≤ m ∧ (((σ m).half d).cst = .done ∨ ops m = .reset ∨ MidBlock (σ m) d k) := by
  by_contra hnever
  have no_beat {m : Nat} (hm : n ≤ m) (hmid : MidBlock (σ m) d (k + 1)) (x : Word) : ops m ≠ .beat d x := fun hx =>
    have hmoved := (hmid.withOracle (answers m)).beat (hv m hm) (hx ▸ hrun m)
    hnever ⟨m + 1, Nat.le_succ_of_le hm, hmoved.imp_right .inr⟩
  have hstays : ∀ m, n ≤ m → MidBlock (σ m) d (k + 1) := by
    intro m hm
    induction m, hm using Nat.le_induction with
    | base => exact hmid
    | succ m hm ih =>
      exact (ih.withOracle (answers m)).stays (hrun m) (no_beat hm ih) fun hr => hnever ⟨m, hm, .inr (.inl hr)⟩
  obtain ⟨m, hm, x, hx⟩ := (hfair d n).1 fun m hm => ⟨(hstays m hm).cst, hv m hm⟩
  exact no_beat hm (hstays m hm) x hx

/-- By induction on the words that are left. -/
theorem MidBlock.eventually_done (hmid : MidBlock (σ n) d k) (hrun : IsRun σ ops answers)
    (hfair : WeaklyFair σ ops answers) (hv : ∀ m, n ≤ m → handshake (answers m) d = true) :
    ∃ m, n ≤ m ∧ (((σ m).half d).cst = .done ∨ ops m = .reset) := by
  induction k generalizing n with
  | zero => exact absurd hmid.pos (Nat.lt_irrefl 0)
  | succ k ih =>
    obtain ⟨m, hm, hdone | hr | hfewer⟩ := hmid.next_word_moves hrun hfair hv
    · exact ⟨m, hm, .inl hdone⟩
    · exact ⟨m, hm, .inr hr⟩
    · obtain ⟨l, hl, hend⟩ := ih hfewer fun l hl => hv l (Nat.le_trans hm hl)
      exact ⟨l, Nat.le_trans hm hl, hend⟩

end

/-- Settles O60: an ARMED channel has N - XIDX words left. -/
theorem blockIsEventuallyComplete : Obligations.BlockIsEventuallyComplete := by
  intro σ ops answers d n hrun hfair hs hc hv
  have hlt := (hs.half d).xidx_armed hc
  have hmid : MidBlock (σ n) d ((σ n).params.n - ((σ n).half d).xidx.toNat) := ⟨hs, hc, by omega⟩
  exact hmid.eventually_done hrun hfair hv

end Sys2Proof.Machine
end
